-- ==== Sys2Proof/Word.lean ====
section
/-! DEFINITION. The value types of the BSOP core (10_state.md R12, R13, R18): words, vector words,
bit-plane batches and 64-word matrices, as arrays of the sizes the source fixes. -/

namespace Sys2Proof

/-- A 64-bit word: a lane, a matrix word, a scalar, `data`, `rdata` (00_scope.md R8, R10). -/
abbrev Word := BitVec 64

/-- A byte; the spec speaks of bytes only inside the accelerated transpose (20_memory.md R34). -/
abbrev Byte := BitVec 8

/-- Vector word: 8 lanes of 64 bits (10_state.md R12). -/
abbrev VectorWord := Vector Word 8

/-- Bit-plane batch: 64 planes; plane `i` holds bit `63 − i` of 512 integers (10_state.md R13, R15). -/
abbrev Batch := Vector VectorWord 64

/-- Matrix: 64 words of 64 bits, a row-major batch or its transposed image (10_state.md R18). -/
abbrev BitMatrix := Vector Word 64

end Sys2Proof
end

