-- ==== Sys2Proof/Config.lean ====
section
/-! DEFINITION. What the hardware fixes (00_scope.md R5, R6) and the values the spec leaves open:
each open value is a constant with no body, so that no proof can see what it is. -/

namespace Sys2Proof

/-- Bits per integer, planes per batch, words per matrix (00_scope.md R5, `W`). -/
abbrev Config.width : Nat := 64

/-- Lanes per vector word (00_scope.md R5, `LANES`). -/
abbrev Config.lanes : Nat := 8

/-- The fixed exponent of `REDUCE` (00_scope.md R5, `REDUCE_K`). -/
abbrev Config.reduceK : Nat := 56

/-- The largest legal exponent of `MODP2` (00_scope.md R5, `KMAX`). -/
abbrev Config.kMax : Nat := 64

/-- Number of batch registers (00_scope.md R6, `NB`). -/
abbrev Config.numBatch : Nat := 4

/-- Number of matrix registers (00_scope.md R6, `NM`). -/
abbrev Config.numMatrix : Nat := 4

/-- `HAS_ACCEL` of the machine that `State.reset` describes: OPEN in the spec (00_scope.md R6,
92_eei_decisions.md D12). DESIGN CHOICE, assumption 2: an uninterpreted constant. Unsafe
only for a claim that two machines are alike in it. -/
opaque Config.hasAccel : Bool

/-- What lane `lane` of plane `plane` of batch register `reg` holds after reset event number `era`
(0 is the first reset): unspecified (10_state.md R29, R30). DESIGN CHOICE, assumption 1: a free
value. Unsafe for a claim that compares two power-ups, or contents after a later reset with those
before it (assumption 15). -/
opaque Config.resetLane (era reg plane lane : Nat) : Word

/-- What word `row` of matrix register `reg` holds after reset event number `era`: unspecified
(10_state.md R29, R30). DESIGN CHOICE, assumption 1: a free value. Unsafe for a claim that
compares two power-ups, or contents after a later reset with those before it (assumption 15). -/
opaque Config.resetWord (era reg row : Nat) : Word

end Sys2Proof
end

