-- ==== Sys2Proof/Syntax.lean ====
section
/-! DEFINITION. The 13 commands of the BSOP command set (30_encoding.md R47) and the request packet
that carries one (R45). -/

namespace Sys2Proof

/-- Number of a batch register `B0..B3` (10_state.md R20). -/
abbrev BReg := Fin 4

/-- Number of a matrix register `M0..M3` (10_state.md R21). -/
abbrev MReg := Fin 4

/-- Plane index of a batch or word index of a matrix, 0..63 (30_encoding.md R48, `idx`). -/
abbrev Index := Fin 64

/-- Lane number, 0..7 (30_encoding.md R48, `lane`). -/
abbrev Lane := Fin 8

/-- A request packet: the command word and the data operand (30_encoding.md R45). -/
structure Request where
  cmd  : BitVec 32
  data : Word
  deriving DecidableEq, Repr

/-- One command with its operands. The register file a number names is the one of
30_encoding.md R49; the scalar, the chain index and the word of a load are the request's `data`
(R51), as in the assembler syntax (R59). -/
inductive Instr where
  /-- `ADD Bd, Bs1, Bs2` (40_arith.md R65). -/
  | add (rd rs1 rs2 : BReg)
  /-- `ADDS Bd, Bs1, #scalar` (40_arith.md R68). -/
  | adds (rd rs1 : BReg) (scalar : Word)
  /-- `MODP2 Bd, Bs1, #k` (40_arith.md R71). `k` is a number; a command word presents 0..255
(DESIGN CHOICE, assumption 10, safe). -/
  | modp2 (rd rs1 : BReg) (k : Nat)
  /-- `REDUCE Bd, Bs1, #index` (40_arith.md R72). -/
  | reduce (rd rs1 : BReg) (index : Word)
  /-- `TRNS Md, Ms` (41_transpose.md R93). -/
  | trns (rd rs1 : MReg)
  /-- `TRNA Md, Ms` (41_transpose.md R94). -/
  | trna (rd rs1 : MReg)
  /-- `LDM Md[i], #value` (42_datamove.md R99). -/
  | ldm (rd : MReg) (idx : Index) (value : Word)
  /-- `STM Ms[i]` (42_datamove.md R100). -/
  | stm (rs1 : MReg) (idx : Index)
  /-- `LDP Bd[i].l, #value` (42_datamove.md R101). -/
  | ldp (rd : BReg) (idx : Index) (lane : Lane) (value : Word)
  /-- `STP Bs[i].l` (42_datamove.md R102). -/
  | stp (rs1 : BReg) (idx : Index) (lane : Lane)
  /-- `PUTL Bd.l, Ms` (42_datamove.md R103). -/
  | putl (rd : BReg) (lane : Lane) (rs1 : MReg)
  /-- `GETL Md, Bs.l` (42_datamove.md R104). -/
  | getl (rd : MReg) (rs1 : BReg) (lane : Lane)
  /-- `RDCAP` (43_system.md R109). -/
  | rdcap
  deriving DecidableEq, Repr

end Sys2Proof
end

