-- ==== Sys2Proof/WellFormed.lean ====
section
/-! DEFINITION. Which terms of `Instr` a command word can present. Register numbers, indexes and
lanes cover their fields exactly (20_memory.md R32), so the one check left is the width of `k`. -/

namespace Sys2Proof

/-- `k` is the 8-bit field `cmd[7:0]`: exponents above 255 cannot be presented
(30_encoding.md R50). The exponents 65..255 are presentable, and legal words (R71). -/
def Instr.wellFormed : Instr → Bool
  | .add _ _ _ => true
  | .adds _ _ _ => true
  | .modp2 _ _ k => k ≤ 255
  | .reduce _ _ _ => true
  | .trns _ _ => true
  | .trna _ _ => true
  | .ldm _ _ _ => true
  | .stm _ _ => true
  | .ldp _ _ _ _ => true
  | .stp _ _ _ => true
  | .putl _ _ _ => true
  | .getl _ _ _ => true
  | .rdcap => true

/-- The check as a proposition. -/
abbrev Instr.WellFormed (i : Instr) : Prop := i.wellFormed = true

end Sys2Proof
end

