-- ==== Sys2Proof/Decode.lean ====
section
/-! DEFINITION. Command words: field layout (30_encoding.md R48), opcode map (R47), formats and
masks (R52), the strict total decoder (R53, R54, R57, R58 steps 1 and 3) and the encoder. -/

namespace Sys2Proof

/-- The fields of a command word (30_encoding.md R48). -/
structure Fields where
  op   : BitVec 8
  rd   : BitVec 2
  rs1  : BitVec 2
  rs2  : BitVec 2
  idx  : BitVec 6
  lane : BitVec 3
  z    : BitVec 1
  k    : BitVec 8
  deriving DecidableEq, Repr

/-- The fields read from a command word (30_encoding.md R48). -/
def Fields.ofCmd (cmd : BitVec 32) : Fields where
  op   := cmd.extractLsb' 24 8
  rd   := cmd.extractLsb' 22 2
  rs1  := cmd.extractLsb' 20 2
  rs2  := cmd.extractLsb' 18 2
  idx  := cmd.extractLsb' 12 6
  lane := cmd.extractLsb' 9 3
  z    := cmd.extractLsb' 8 1
  k    := cmd.extractLsb' 0 8

/-- The command word of the fields:
`op<<24 | rd<<22 | rs1<<20 | rs2<<18 | idx<<12 | lane<<9 | z<<8 | k` (30_encoding.md R48). -/
def Fields.toCmd (f : Fields) : BitVec 32 :=
  f.op.setWidth 32 <<< 24 ||| f.rd.setWidth 32 <<< 22 ||| f.rs1.setWidth 32 <<< 20 |||
    f.rs2.setWidth 32 <<< 18 ||| f.idx.setWidth 32 <<< 12 ||| f.lane.setWidth 32 <<< 9 |||
    f.z.setWidth 32 <<< 8 ||| f.k.setWidth 32

/-- The 13 opcodes by name (30_encoding.md R47). -/
inductive Opcode where
  | add | adds | modp2 | reduce | trns | trna | ldm | stm | ldp | stp | putl | getl | rdcap
  deriving DecidableEq, Repr

/-- Opcode numbers (30_encoding.md R47). -/
def Opcode.code : Opcode → BitVec 8
  | .add => 0x01
  | .adds => 0x02
  | .modp2 => 0x03
  | .reduce => 0x04
  | .trns => 0x08
  | .trna => 0x09
  | .ldm => 0x10
  | .stm => 0x11
  | .ldp => 0x12
  | .stp => 0x13
  | .putl => 0x14
  | .getl => 0x15
  | .rdcap => 0x1F

/-- All opcodes, in the order of the table. -/
def Opcode.all : List Opcode :=
  [.add, .adds, .modp2, .reduce, .trns, .trna, .ldm, .stm, .ldp, .stp, .putl, .getl, .rdcap]

/-- The opcode with a given number; none for the reserved numbers (30_encoding.md R54). -/
def Opcode.ofCode (c : BitVec 8) : Option Opcode :=
  Opcode.all.find? fun o => o.code == c

/-- A format is the set of fields a command uses (30_encoding.md R52). -/
inductive Format where
  | b3 | b2 | b2k | m2 | mw | mr | pw | pr | lc | z
  deriving DecidableEq, Repr

/-- The format of each command (30_encoding.md R47). -/
def Opcode.format : Opcode → Format
  | .add => .b3
  | .adds => .b2
  | .modp2 => .b2k
  | .reduce => .b2
  | .trns => .m2
  | .trna => .m2
  | .ldm => .mw
  | .stm => .mr
  | .ldp => .pw
  | .stp => .pr
  | .putl => .lc
  | .getl => .lc
  | .rdcap => .z

/-- The mask of each format (30_encoding.md R52). -/
def Format.mask : Format → BitVec 32
  | .b3 => 0xFF03FFFF
  | .b2 => 0xFF0FFFFF
  | .b2k => 0xFF0FFF00
  | .m2 => 0xFF0FFFFF
  | .mw => 0xFF3C0FFF
  | .mr => 0xFFCC0FFF
  | .pw => 0xFF3C01FF
  | .pr => 0xFFCC01FF
  | .lc => 0xFF0FF1FF
  | .z => 0xFFFFFFFF

/-- The "Must be zero" column of 30_encoding.md R52, field by field. -/
def Format.mustBeZero (f : Fields) : Format → Prop
  | .b3 => f.idx = 0 ∧ f.lane = 0 ∧ f.z = 0 ∧ f.k = 0
  | .b2 => f.rs2 = 0 ∧ f.idx = 0 ∧ f.lane = 0 ∧ f.z = 0 ∧ f.k = 0
  | .b2k => f.rs2 = 0 ∧ f.idx = 0 ∧ f.lane = 0 ∧ f.z = 0
  | .m2 => f.rs2 = 0 ∧ f.idx = 0 ∧ f.lane = 0 ∧ f.z = 0 ∧ f.k = 0
  | .mw => f.rs1 = 0 ∧ f.rs2 = 0 ∧ f.lane = 0 ∧ f.z = 0 ∧ f.k = 0
  | .mr => f.rd = 0 ∧ f.rs2 = 0 ∧ f.lane = 0 ∧ f.z = 0 ∧ f.k = 0
  | .pw => f.rs1 = 0 ∧ f.rs2 = 0 ∧ f.z = 0 ∧ f.k = 0
  | .pr => f.rd = 0 ∧ f.rs2 = 0 ∧ f.z = 0 ∧ f.k = 0
  | .lc => f.rs2 = 0 ∧ f.idx = 0 ∧ f.z = 0 ∧ f.k = 0
  | .z => f.rd = 0 ∧ f.rs1 = 0 ∧ f.rs2 = 0 ∧ f.idx = 0 ∧ f.lane = 0 ∧ f.z = 0 ∧ f.k = 0

/-- `match` is `op << 24` for every command (30_encoding.md R52). -/
def Opcode.matchWord (o : Opcode) : BitVec 32 := o.code.setWidth 32 <<< 24

/-- Why a command word is not a legal command; both draw `ERR_ILLEGAL` (60_exceptions.md R113). -/
inductive DecodeError where
  /-- The opcode is reserved (30_encoding.md R54). -/
  | undefinedOpcode (op : BitVec 8)
  /-- A bit that the command's format does not use is 1 (30_encoding.md R53). -/
  | mustBeZero (o : Opcode)
  deriving DecidableEq, Repr

/-- The command an opcode, its fields and the data operand spell (30_encoding.md R49, R50, R51). -/
def Opcode.build (o : Opcode) (f : Fields) (data : Word) : Instr :=
  match o with
  | .add => .add f.rd.toFin f.rs1.toFin f.rs2.toFin
  | .adds => .adds f.rd.toFin f.rs1.toFin data
  | .modp2 => .modp2 f.rd.toFin f.rs1.toFin f.k.toNat
  | .reduce => .reduce f.rd.toFin f.rs1.toFin data
  | .trns => .trns f.rd.toFin f.rs1.toFin
  | .trna => .trna f.rd.toFin f.rs1.toFin
  | .ldm => .ldm f.rd.toFin f.idx.toFin data
  | .stm => .stm f.rs1.toFin f.idx.toFin
  | .ldp => .ldp f.rd.toFin f.idx.toFin f.lane.toFin data
  | .stp => .stp f.rs1.toFin f.idx.toFin f.lane.toFin
  | .putl => .putl f.rd.toFin f.lane.toFin f.rs1.toFin
  | .getl => .getl f.rd.toFin f.rs1.toFin f.lane.toFin
  | .rdcap => .rdcap

/-- The decoder: steps 1 and 3 of 30_encoding.md R58, on the command word alone. Step 2 (`TRNA`
with `HAS_ACCEL` = 0, R55) needs the state and stands in the meaning of `TRNA`; both steps give the
same response, so their order is not observable (60_exceptions.md R117; DEDUCED, assumption 14,
safe). -/
def decode (r : Request) : Except DecodeError Instr :=
  match Opcode.ofCode (Fields.ofCmd r.cmd).op with
  | none => .error (.undefinedOpcode (Fields.ofCmd r.cmd).op)
  | some o =>
    if r.cmd &&& o.format.mask = o.matchWord then .ok (o.build (Fields.ofCmd r.cmd) r.data)
    else .error (.mustBeZero o)

/-- The opcode of a command (30_encoding.md R47). -/
def Instr.opcode : Instr → Opcode
  | .add _ _ _ => .add
  | .adds _ _ _ => .adds
  | .modp2 _ _ _ => .modp2
  | .reduce _ _ _ => .reduce
  | .trns _ _ => .trns
  | .trna _ _ => .trna
  | .ldm _ _ _ => .ldm
  | .stm _ _ => .stm
  | .ldp _ _ _ _ => .ldp
  | .stp _ _ _ => .stp
  | .putl _ _ _ => .putl
  | .getl _ _ _ => .getl
  | .rdcap => .rdcap

/-- All fields zero but the opcode: what an encoding starts from (30_encoding.md R53). -/
def Fields.bare (o : Opcode) : Fields where
  op := o.code
  rd := 0
  rs1 := 0
  rs2 := 0
  idx := 0
  lane := 0
  z := 0
  k := 0

/-- A register number as a field. -/
def regField (r : Fin 4) : BitVec 2 := BitVec.ofFin r

/-- The fields of a command (column "`cmd` fields" of 30_encoding.md R59). -/
def Instr.fields : Instr → Fields
  | .add rd rs1 rs2 =>
    { Fields.bare .add with rd := regField rd, rs1 := regField rs1, rs2 := regField rs2 }
  | .adds rd rs1 _ => { Fields.bare .adds with rd := regField rd, rs1 := regField rs1 }
  | .modp2 rd rs1 k =>
    { Fields.bare .modp2 with rd := regField rd, rs1 := regField rs1, k := BitVec.ofNat 8 k }
  | .reduce rd rs1 _ => { Fields.bare .reduce with rd := regField rd, rs1 := regField rs1 }
  | .trns rd rs1 => { Fields.bare .trns with rd := regField rd, rs1 := regField rs1 }
  | .trna rd rs1 => { Fields.bare .trna with rd := regField rd, rs1 := regField rs1 }
  | .ldm rd idx _ => { Fields.bare .ldm with rd := regField rd, idx := BitVec.ofFin idx }
  | .stm rs1 idx => { Fields.bare .stm with rs1 := regField rs1, idx := BitVec.ofFin idx }
  | .ldp rd idx lane _ =>
    { Fields.bare .ldp with rd := regField rd, idx := BitVec.ofFin idx, lane := BitVec.ofFin lane }
  | .stp rs1 idx lane =>
    { Fields.bare .stp with
      rs1 := regField rs1, idx := BitVec.ofFin idx, lane := BitVec.ofFin lane }
  | .putl rd lane rs1 =>
    { Fields.bare .putl with rd := regField rd, rs1 := regField rs1, lane := BitVec.ofFin lane }
  | .getl rd rs1 lane =>
    { Fields.bare .getl with rd := regField rd, rs1 := regField rs1, lane := BitVec.ofFin lane }
  | .rdcap => Fields.bare .rdcap

/-- The data operand of a command: 0 where the command ignores it, as the assembler emits it
(30_encoding.md R51, R59; DESIGN CHOICE, assumption 11, safe). -/
def Instr.data : Instr → Word
  | .add _ _ _ => 0
  | .adds _ _ scalar => scalar
  | .modp2 _ _ _ => 0
  | .reduce _ _ index => index
  | .trns _ _ => 0
  | .trna _ _ => 0
  | .ldm _ _ value => value
  | .stm _ _ => 0
  | .ldp _ _ _ value => value
  | .stp _ _ _ => 0
  | .putl _ _ _ => 0
  | .getl _ _ _ => 0
  | .rdcap => 0

/-- Whether a command uses the data operand (30_encoding.md R51). -/
def Instr.usesData : Instr → Bool
  | .add _ _ _ => false
  | .adds _ _ _ => true
  | .modp2 _ _ _ => false
  | .reduce _ _ _ => true
  | .trns _ _ => false
  | .trna _ _ => false
  | .ldm _ _ _ => true
  | .stm _ _ => false
  | .ldp _ _ _ _ => true
  | .stp _ _ _ => false
  | .putl _ _ _ => false
  | .getl _ _ _ => false
  | .rdcap => false

/-- The request packet of a command. -/
def encode (i : Instr) : Request := ⟨i.fields.toCmd, i.data⟩

/-- The request packet whose 96 bits are `w`, the command word in bits 31..0 and `data` in bits
95..32. DESIGN CHOICE, assumption 5: the spec numbers no bits across the packet's two values; only
the host's own questions about a table word use this. Safe. -/
def Request.ofBits (w : Nat) : Request := ⟨BitVec.ofNat 32 w, BitVec.ofNat 64 (w / 2 ^ 32)⟩

/-- The packet of a table word of `nbits` bits: every bit above `nbits` is 0. -/
def tableRequest (nbits w : Nat) : Request := Request.ofBits (w % 2 ^ nbits)

/-- What the decoder reads from a table word; none where it refuses. -/
def decodeTableWord (nbits w : Nat) : Option Instr :=
  match decode (tableRequest nbits w) with
  | .ok i => some i
  | .error _ => none

end Sys2Proof
end

