-- ==== Sys2Proof/Machine/State.lean ====
section
/-! DEFINITION. The state of a BSOP core (10_state.md R28), the two sides of its command port
(30_encoding.md R45, R46), and the state after reset (10_state.md R29). -/

namespace Sys2Proof.Machine

/-- Response status (30_encoding.md R46). The value 3, never produced, has no constructor. -/
inductive Status where
  | ok
  | errParam
  | errIllegal
  deriving DecidableEq, Repr

/-- A response packet (30_encoding.md R46). -/
structure Response where
  status : Status
  rdata  : Word
  deriving DecidableEq, Repr

/-- What the host can do to the core: the complete list of 70_reset_and_hazards.md R137. -/
inductive Input where
  /-- The reset event, between commands only (R129). -/
  | reset
  /-- One request packet (30_encoding.md R45). -/
  | request (r : Request)
  deriving DecidableEq, Repr

/-- The state. `batch` and `matrix` are the register files (10_state.md R20, R21), `hasAccel` is the
hardwired `CAP.ACCEL` (R24; the other bits of `CAP` are constants). `inputs` is what the host has
still to do, oldest first, and `responses` what it has been answered, newest first (the two sides
of the port; DESIGN CHOICE, assumption 3). `resets`, the model's own, counts the reset events so
that each leaves fresh free values (DESIGN CHOICE, assumption 4). -/
structure State where
  batch     : Vector Batch 4
  matrix    : Vector BitMatrix 4
  hasAccel  : Bool
  inputs    : List Input
  responses : List Response
  resets    : Nat
  deriving DecidableEq, Repr

/-- Reasons for the machine to stop with a fault: none. Every request gets a response
(70_reset_and_hazards.md R133) and an error is a response status (60_exceptions.md R116). -/
inductive Fault where
  deriving DecidableEq, Repr

/-- Reasons for the model to give an instruction no meaning. -/
inductive Refusal where
  /-- Raised by an arm of `exec` whose instruction has no meaning yet; no arm is left. Safe. -/
  | notModelled (mnemonic : String)
  deriving DecidableEq, Repr

/-- The batch file after reset event number `era`: unspecified (10_state.md R29, R30). DESIGN
CHOICE, assumptions 1 and 15: a free value in every lane. -/
def unspecifiedBatches (era : Nat) : Vector Batch 4 :=
  Vector.ofFn fun r => Vector.ofFn fun i => Vector.ofFn fun l =>
    Config.resetLane era r.val i.val l.val

/-- The matrix file after reset event number `era`: unspecified (10_state.md R29, R30). DESIGN
CHOICE, assumptions 1 and 15: a free value in every word. -/
def unspecifiedMatrices (era : Nat) : Vector BitMatrix 4 :=
  Vector.ofFn fun r => Vector.ofFn fun i => Config.resetWord era r.val i.val

/-- A core with or without the accelerated datapath, right after its first reset
(10_state.md R29, 70_reset_and_hazards.md R129): no command in hand, nothing answered yet. -/
def State.resetWith (hasAccel : Bool) : State where
  batch := unspecifiedBatches 0
  matrix := unspecifiedMatrices 0
  hasAccel := hasAccel
  inputs := []
  responses := []
  resets := 0

/-- The machine right after reset. `HAS_ACCEL` is OPEN (00_scope.md R6): DESIGN CHOICE,
assumption 2, the uninterpreted `Config.hasAccel`. -/
def State.reset : State := State.resetWith Config.hasAccel

end Sys2Proof.Machine
end

