-- ==== Sys2Proof/Machine/Flags.lean ====
section
/-! DEFINITION. The BSOP core has no flags (10_state.md R26); the only condition a command reports
is the status of its response (30_encoding.md R46), computed here. -/

namespace Sys2Proof.Machine

/-- The 2-bit code of a status (30_encoding.md R46). -/
def Status.code : Status → BitVec 2
  | .ok => 0
  | .errParam => 1
  | .errIllegal => 2

/-- The status of `MODP2` with exponent `k` (40_arith.md R71, 60_exceptions.md R112). -/
def moduloStatus (k : Nat) : Status := if k > Config.kMax then .errParam else .ok

/-- The status of `TRNA` (30_encoding.md R55, 41_transpose.md R94). -/
def accelStatus (hasAccel : Bool) : Status := bif hasAccel then .ok else .errIllegal

end Sys2Proof.Machine
end

