-- ==== Sys2Proof/Machine/Operands.lean ====
section
/-! DEFINITION. Values the commands compute with: bits and bytes of words, the vector-word
operations, elements and lane columns of the registers' values, integers of a batch, `CAP`. -/

namespace Sys2Proof.Machine

/-- The word with bit `b` given by `f b`, bit 0 least significant (00_scope.md R7). -/
def wordOfBits (f : Fin 64 → Bool) : Word := BitVec.ofFnLE f

/-- Byte `b` of a word: bits `8b+7 .. 8b` (00_scope.md R7; byte 0 least significant, PRESUMED by
the spec itself, 93_implementation_defined.md G1, assumption 8). -/
def byteOf (w : Word) (b : Fin 8) : Byte := w.extractLsb' (8 * b.val) 8

/-- The byte with bit `t` given by `f t`. -/
def byteOfBits (f : Fin 8 → Bool) : Byte := BitVec.ofFnLE f

/-- The word with byte `b` given by `f b`. -/
def wordOfBytes (f : Fin 8 → Byte) : Word :=
  wordOfBits fun p => (f ⟨p.val / 8, by omega⟩).getLsbD (p.val % 8)

/-- A two-operand bitwise operation on vector words: each lane by itself (10_state.md R12). -/
def lanewise (f : Word → Word → Word) (x y : VectorWord) : VectorWord :=
  Vector.ofFn fun l => f x[l] y[l]

/-- `x ^ y` on vector words (00_scope.md R10). -/
def vxor (x y : VectorWord) : VectorWord := lanewise (· ^^^ ·) x y

/-- `x & y` on vector words (00_scope.md R10). -/
def vand (x y : VectorWord) : VectorWord := lanewise (· &&& ·) x y

/-- `x | y` on vector words (00_scope.md R10). -/
def vor (x y : VectorWord) : VectorWord := lanewise (· ||| ·) x y

/-- `bcast(c)`: the vector word whose 512 bits all equal `c` (00_scope.md R10). -/
def bcast (c : Bool) : VectorWord := Vector.ofFn fun _ => bif c then BitVec.allOnes 64 else 0

/-- `ZERO` (00_scope.md R10). -/
def zeroPlane : VectorWord := bcast false

/-- `ONES` (00_scope.md R10). -/
def onesPlane : VectorWord := bcast true

/-- The batch of 64 planes of `ZERO`. -/
def zeroBatch : Batch := Vector.ofFn fun _ => zeroPlane

/-- The matrix of 64 zero words. -/
def zeroMatrix : BitMatrix := Vector.ofFn fun _ => 0

/-- Bit `p` of lane `l` of plane `i` (00_scope.md R10). -/
def planeBit (X : Batch) (i : Index) (l : Lane) (p : Fin 64) : Bool := X[i][l].getLsbD p.val

/-- Bit `b` of integer number `n` of a batch (10_state.md R16). -/
def intBit (X : Batch) (n : Fin 512) (b : Fin 64) : Bool :=
  planeBit X b.rev ⟨n.val / 64, by omega⟩ ⟨n.val % 64, by omega⟩

/-- `int(X, n)`, the integer number `n` of a batch; no command computes it (10_state.md R17). -/
def intOf (X : Batch) (n : Fin 512) : Nat := ∑ b : Fin 64, 2 ^ b.val * (intBit X n b).toNat

/-- A batch with lane `l` of plane `i` replaced (20_memory.md R32). -/
def writeLane (X : Batch) (i : Index) (l : Lane) (w : Word) : Batch := X.set i (X[i].set l w)

/-- A batch with lane `l` of every plane `i` replaced by word `i` of a matrix
(42_datamove.md R103). -/
def putColumn (X : Batch) (l : Lane) (A : BitMatrix) : Batch := Vector.ofFn fun i => X[i].set l A[i]

/-- Lane `l` of every plane, as a matrix (42_datamove.md R104). -/
def getColumn (X : Batch) (l : Lane) : BitMatrix := Vector.ofFn fun i => X[i][l]

/-- The value of the capability register, field by field from bit 63 down (10_state.md R24). -/
def capability (hasAccel : Bool) : Word :=
  (0 : BitVec 31) ++ BitVec.ofBool hasAccel ++ BitVec.ofNat 4 Config.numMatrix
    ++ BitVec.ofNat 4 Config.numBatch ++ BitVec.ofNat 8 Config.reduceK
    ++ BitVec.ofNat 8 Config.lanes ++ BitVec.ofNat 8 Config.width

end Sys2Proof.Machine
end

