-- ==== Sys2Proof/Machine/Ops.lean ====
section
/-! DEFINITION. The named operations on the state: the register files, the response, the one way an
error is taken, the reset event, and taking the next input from the host. -/

namespace Sys2Proof.Machine

/-- `B[r]` (10_state.md R20). -/
def State.getBatch (s : State) (r : BReg) : Batch := s.batch[r]

/-- `B[r] <- X` (10_state.md R20). -/
def State.setBatch (s : State) (r : BReg) (X : Batch) : State := { s with batch := s.batch.set r X }

/-- `M[r]` (10_state.md R21). -/
def State.getMatrix (s : State) (r : MReg) : BitMatrix := s.matrix[r]

/-- `M[r] <- A` (10_state.md R21). -/
def State.setMatrix (s : State) (r : MReg) (A : BitMatrix) : State :=
  { s with matrix := s.matrix.set r A }

/-- `respond(st, v)`: one response ends every command (00_scope.md R10, 30_encoding.md R46). -/
def State.respond (s : State) (st : Status) (v : Word) : State :=
  { s with responses := ⟨st, v⟩ :: s.responses }

/-- `respond(OK)`: no word is read, so `rdata` is zero (30_encoding.md R62). -/
def State.respondOk (s : State) : State := s.respond .ok 0

/-- Taking an error: "produce the response with the error status; change nothing"
(60_exceptions.md R116, R118; `rdata` zero by 30_encoding.md R62). There is no handler to enter and
nothing to return from (R116, R119). -/
def State.respondError (s : State) (st : Status) : State := s.respond st 0

/-- A word that is no legal command, for whichever reason: `ERR_ILLEGAL` (60_exceptions.md R113;
answered, not refused: DESIGN CHOICE, assumption 9, safe). -/
def State.rejectWord (s : State) (_reason : DecodeError) : State := s.respondError .errIllegal

/-- The reset event (70_reset_and_hazards.md R129): the register files become unspecified, fresh at
each reset (10_state.md R30). R30 does not constrain the choice; that it is a function of the number
of the reset and the element's place alone, never of what the registers held before, is the model's
(DESIGN CHOICE, assumption 15; unsafe). The hardwired `CAP` stays; the host keeps the answers it has
(DESIGN CHOICE, assumption 12; safe). -/
def State.coldReset (s : State) : State :=
  { s with
    batch := unspecifiedBatches (s.resets + 1)
    matrix := unspecifiedMatrices (s.resets + 1)
    resets := s.resets + 1 }

/-- Between commands the core is idle and keeps its state (60_exceptions.md R126). That an idle core
takes steps is the model's choice (DESIGN CHOICE, assumption 3). -/
def State.idle (s : State) : State := s

/-- The host's next action, with the state in which the core performs it (20_memory.md R40). -/
def State.nextInput (s : State) : Option (Input × State) :=
  match s.inputs with
  | [] => none
  | i :: rest => some (i, { s with inputs := rest })

/-- The host presents a request before all else it has to do (30_encoding.md R45). -/
def State.present (s : State) (r : Request) : State :=
  { s with inputs := .request r :: s.inputs }

end Sys2Proof.Machine
end

