-- ==== Sys2Proof/Machine/Arithmetic.lean ====
section
/-! DEFINITION. The Bitsliced Arithmetic Engine (40_arith.md): the carry-propagate step, the three
batch functions built from it, and `ADD`, `ADDS`, `MODP2`, `REDUCE`. -/

namespace Sys2Proof.Machine

/-- The carry-propagate step `FA`: the sum and the next carry (40_arith.md R63). -/
def fullAdder (x y c : VectorWord) : VectorWord × VectorWord :=
  (vxor (vxor x y) c, vor (vand x y) (vand c (vxor x y)))

/-- The first `n` steps of the ripple chain, from plane 63 towards plane 0: the sum planes so far
and the carry (40_arith.md R64). The carry into plane 63 is `ZERO`. -/
def rippleSteps (a b : Batch) : (n : Nat) → n ≤ 64 → Batch × VectorWord
  | 0, _ => (zeroBatch, zeroPlane)
  | n + 1, h =>
    let done := rippleSteps a b n (by omega)
    let step := fullAdder a[63 - n] b[63 - n] done.2
    (done.1.set (63 - n) step.1, step.2)

/-- `RIPPLE`: all 64 steps; the carry out of plane 0 is dropped (40_arith.md R64). -/
def ripple (a b : Batch) : Batch := (rippleSteps a b 64 (by omega)).1

/-- `SPLANES`: plane `i` is bit `63 − i` of the scalar, broadcast (40_arith.md R67). -/
def scalarPlanes (x : Word) : Batch := Vector.ofFn fun i => bcast (x.getLsbD i.rev.val)

/-- `TRUNC`: planes `i < 64 − k` are zeroed, the others kept (40_arith.md R70; the half-open range of
90_conflicts.md C2). -/
def truncate (a : Batch) (k : Nat) : Batch :=
  Vector.ofFn fun i => if i.val < 64 - k then zeroPlane else a[i]

/-- `ADD` (40_arith.md R65). -/
def execAdd (rd rs1 rs2 : BReg) (s : State) : Host.Outcome State Fault Refusal :=
  .next (s.setBatch rd (ripple (s.getBatch rs1) (s.getBatch rs2))).respondOk

/-- `ADDS` (40_arith.md R68). -/
def execAdds (rd rs1 : BReg) (scalar : Word) (s : State) : Host.Outcome State Fault Refusal :=
  .next (s.setBatch rd (ripple (s.getBatch rs1) (scalarPlanes scalar))).respondOk

/-- `MODP2`: the range check comes before any register is read (40_arith.md R71,
60_exceptions.md R112, R118). -/
def execModp2 (rd rs1 : BReg) (k : Nat) (s : State) : Host.Outcome State Fault Refusal :=
  match moduloStatus k with
  | .ok => .next (s.setBatch rd (truncate (s.getBatch rs1) k)).respondOk
  | .errParam => .next (s.respondError .errParam)
  | .errIllegal => .next (s.respondError .errIllegal)

/-- `REDUCE`: scalar addition, then truncation to the fixed 56 bits (40_arith.md R72). -/
def execReduce (rd rs1 : BReg) (index : Word) (s : State) : Host.Outcome State Fault Refusal :=
  .next (s.setBatch rd
    (truncate (ripple (s.getBatch rs1) (scalarPlanes index)) Config.reduceK)).respondOk

end Sys2Proof.Machine
end

