-- ==== Sys2Proof/Machine/DataMove.lean ====
section
/-! DEFINITION. Data movement (42_datamove.md): `LDM`, `STM`, `LDP`, `STP`, `PUTL`, `GETL`. -/

namespace Sys2Proof.Machine

/-- `LDM` (42_datamove.md R99). -/
def execLdm (rd : MReg) (idx : Index) (value : Word) (s : State) :
    Host.Outcome State Fault Refusal :=
  .next (s.setMatrix rd ((s.getMatrix rd).set idx value)).respondOk

/-- `STM` (42_datamove.md R100). -/
def execStm (rs1 : MReg) (idx : Index) (s : State) : Host.Outcome State Fault Refusal :=
  .next (s.respond .ok (s.getMatrix rs1)[idx])

/-- `LDP` (42_datamove.md R101). -/
def execLdp (rd : BReg) (idx : Index) (lane : Lane) (value : Word) (s : State) :
    Host.Outcome State Fault Refusal :=
  .next (s.setBatch rd (writeLane (s.getBatch rd) idx lane value)).respondOk

/-- `STP` (42_datamove.md R102). -/
def execStp (rs1 : BReg) (idx : Index) (lane : Lane) (s : State) :
    Host.Outcome State Fault Refusal :=
  .next (s.respond .ok (s.getBatch rs1)[idx][lane])

/-- `PUTL` (42_datamove.md R103). -/
def execPutl (rd : BReg) (lane : Lane) (rs1 : MReg) (s : State) :
    Host.Outcome State Fault Refusal :=
  .next (s.setBatch rd (putColumn (s.getBatch rd) lane (s.getMatrix rs1))).respondOk

/-- `GETL` (42_datamove.md R104). -/
def execGetl (rd : MReg) (rs1 : BReg) (lane : Lane) (s : State) :
    Host.Outcome State Fault Refusal :=
  .next (s.setMatrix rd (getColumn (s.getBatch rs1) lane)).respondOk

end Sys2Proof.Machine
end

