-- ==== Sys2Proof/Machine/System.lean ====
section
/-! DEFINITION. The system family: `RDCAP` alone (43_system.md R108). -/

namespace Sys2Proof.Machine

/-- `RDCAP` (43_system.md R109). -/
def execRdcap (s : State) : Host.Outcome State Fault Refusal :=
  .next (s.respond .ok (capability s.hasAccel))

end Sys2Proof.Machine
end

