-- ==== Sys2Proof/Machine/Transpose.lean ====
section
/-! DEFINITION. The Bit-Matrix Transpose Engine (41_transpose.md): the one architectural function
`T`, the scalar algorithm, the accelerated datapath stage by stage, and `TRNS`, `TRNA`. -/

namespace Sys2Proof.Machine

/-- `T`: `T(A)[63 − j][63 − k] = A[k][j]` (41_transpose.md R82; the reading of 90_conflicts.md C1). -/
def transpose (A : BitMatrix) : BitMatrix :=
  Vector.ofFn fun r => wordOfBits fun b => A[b.rev].getLsbD r.rev.val

/-- The word `k | j` that word `k` is paired with (41_transpose.md R85). -/
def partner (j k : Index) : Index := k ||| j

/-- One exchange of the scalar algorithm, its three lines in order (41_transpose.md R85). -/
def exchange (j : Index) (m : Word) (X : BitMatrix) (k : Index) : BitMatrix :=
  let t := (X[k] ^^^ (X[partner j k] >>> j.val)) &&& m
  let Y := X.set k (X[k] ^^^ t)
  Y.set (partner j k) (Y[partner j k] ^^^ (t <<< j.val))

/-- One round: every `k` with `k & j = 0`, in rising order (41_transpose.md R85). -/
def exchangeRound (j : Index) (m : Word) (X : BitMatrix) : BitMatrix :=
  (List.finRange 64).foldl (fun X k => if k &&& j = 0 then exchange j m X k else X) X

/-- The block size of the next round: `j >> 1` (41_transpose.md R85). -/
def halve (j : Index) : Index := ⟨j.val / 2, by omega⟩

/-- The mask of the next round, updated with the new block size (41_transpose.md R85, R86). -/
def nextMask (j : Index) (m : Word) : Word := m ^^^ (m <<< (halve j).val)

/-- The loop `while j != 0`, for at most the given number of rounds (41_transpose.md R85). -/
def scalarRounds : Nat → Index → Word → BitMatrix → BitMatrix
  | 0, _, _, X => X
  | n + 1, j, m, X =>
    if j = 0 then X else scalarRounds n (halve j) (nextMask j m) (exchangeRound j m X)

/-- `T_scalar`: block size 32 and the low half mask first; the seventh test of the loop finds
`j = 0` (41_transpose.md R85, R86; the bound and the order of exchanges DEDUCED, assumption 13,
safe). -/
def transposeScalar (A : BitMatrix) : BitMatrix := scalarRounds 7 32 0x00000000FFFFFFFF A

/-- The byte-gather table `perm[8g + l] = 8l + (7 − g)` (41_transpose.md R89). -/
def gatherPerm (i : Fin 64) : Fin 64 := ⟨i.val % 8 * 8 + (7 - i.val / 8), by omega⟩

/-- Byte number `8l + b` of group `v`: byte `b` of word `A[8v + l]` (20_memory.md R34, PRESUMED by
the spec itself, G1, assumption 8). -/
def groupByte (A : BitMatrix) (v : Fin 8) (n : Fin 64) : Byte :=
  byteOf A[8 * v.val + n.val / 8] ⟨n.val % 8, by omega⟩

/-- Stage 1, byte gather: output byte `i` of a group is its input byte `perm[i]`; word `g` of
gathered group `v` is `P[v][g]` (41_transpose.md R89; gather reading PRESUMED, G3, assumption 8). -/
def byteGather (A : BitMatrix) : Vector VectorWord 8 :=
  Vector.ofFn fun v => Vector.ofFn fun g => wordOfBytes fun l =>
    groupByte A v (gatherPerm ⟨8 * g.val + l.val, by omega⟩)

/-- `BT8`: bit `i` of output byte `j` is bit `j` of input byte `7 − i` (41_transpose.md R90; the
reading of 90_conflicts.md C5). -/
def blockTranspose (q : Word) : Word :=
  wordOfBytes fun j => byteOfBits fun i => (byteOf q i.rev).getLsbD j.val

/-- Stage 2: `BT8` of each of the eight words of each group (41_transpose.md R90; 90_conflicts.md
C4). -/
def blockTransposeStage (P : Vector VectorWord 8) : Vector VectorWord 8 :=
  Vector.ofFn fun v => Vector.ofFn fun g => blockTranspose P[v][g]

/-- Stage 3, the net byte routing: `out[8g + i].byte[7 − v] = R[v][g].byte[7 − i]`
(41_transpose.md R91). -/
def reassemble (R : Vector VectorWord 8) : BitMatrix :=
  Vector.ofFn fun r => wordOfBytes fun b =>
    byteOf R[b.rev][r.val / 8] (Fin.rev ⟨r.val % 8, by omega⟩)

/-- `T_accel`: stage 3 of stage 2 of stage 1 (41_transpose.md R92). -/
def transposeAccel (A : BitMatrix) : BitMatrix := reassemble (blockTransposeStage (byteGather A))

/-- The parity of a byte. -/
def parity (x : Byte) : Bool := (List.finRange 8).foldl (fun p t => p ^^ x.getLsbD t.val) false

/-- The byte-affine instruction with a zero additive constant: result bit `i` of byte `j` is the
parity of byte `7 − i` of the matrix operand and byte `j` of the data operand (41_transpose.md R90,
93_implementation_defined.md G2, PRESUMED by the spec itself, assumption 8). -/
def byteAffine (matrix data : Word) : Word :=
  wordOfBytes fun j => byteOfBits fun i => parity (byteOf matrix i.rev &&& byteOf data j)

/-- The constant of stage 2 (41_transpose.md R90). -/
def stageTwoConstant : Word := 0x8040201008040201

/-- `TRNS` (41_transpose.md R93). -/
def execTrns (rd rs1 : MReg) (s : State) : Host.Outcome State Fault Refusal :=
  .next (s.setMatrix rd (transpose (s.getMatrix rs1))).respondOk

/-- `TRNA`: implemented only when `HAS_ACCEL` = 1 (41_transpose.md R94); otherwise its opcode is
undefined (30_encoding.md R55), and there is no fallback (41_transpose.md R96). -/
def execTrna (rd rs1 : MReg) (s : State) : Host.Outcome State Fault Refusal :=
  .next (match accelStatus s.hasAccel with
    | .ok => (s.setMatrix rd (transpose (s.getMatrix rs1))).respondOk
    | .errParam => s.respondError .errParam
    | .errIllegal => s.respondError .errIllegal)

end Sys2Proof.Machine
end

