-- ==== Sys2Proof/Machine/Dispatch.lean ====
section
/-! DEFINITION. One arm per command (30_encoding.md R47). -/

namespace Sys2Proof.Machine

def exec (i : Instr) (s : State) : Host.Outcome State Fault Refusal :=
  match i with
  | .add rd rs1 rs2 => Sys2Proof.Machine.execAdd rd rs1 rs2 s
  | .adds rd rs1 scalar => Sys2Proof.Machine.execAdds rd rs1 scalar s
  | .modp2 rd rs1 k => Sys2Proof.Machine.execModp2 rd rs1 k s
  | .reduce rd rs1 index => Sys2Proof.Machine.execReduce rd rs1 index s
  | .trns rd rs1 => Sys2Proof.Machine.execTrns rd rs1 s
  | .trna rd rs1 => Sys2Proof.Machine.execTrna rd rs1 s
  | .ldm rd idx value => Sys2Proof.Machine.execLdm rd idx value s
  | .stm rs1 idx => Sys2Proof.Machine.execStm rs1 idx s
  | .ldp rd idx lane value => Sys2Proof.Machine.execLdp rd idx lane value s
  | .stp rs1 idx lane => Sys2Proof.Machine.execStp rs1 idx lane s
  | .putl rd lane rs1 => Sys2Proof.Machine.execPutl rd lane rs1 s
  | .getl rd rs1 lane => Sys2Proof.Machine.execGetl rd rs1 lane s
  | .rdcap => Sys2Proof.Machine.execRdcap s

end Sys2Proof.Machine
end

