-- ==== Sys2Proof/Machine/Step.lean ====
section
/-! DEFINITION. One step: the core takes the host's next action and performs it whole
(20_memory.md R36, R40; 70_reset_and_hazards.md R137). -/

namespace Sys2Proof.Machine

/-- With no action pending the core is idle; a reset is taken between commands; a request is decoded
(30_encoding.md R58) and performed, or answered `ERR_ILLEGAL`. -/
def step (s : State) : Host.Outcome State Fault Refusal :=
  match s.nextInput with
  | none => .next s.idle
  | some (.reset, t) => .next t.coldReset
  | some (.request r, t) =>
    match decode r with
    | .ok i => exec i t
    | .error e => .next (t.rejectWord e)

/-- `s` with the request of a table word presented next (30_encoding.md R45), its data operand the
bits above the command word. -/
def State.withFetchWord (s : State) (nbits w : Nat) : State := s.present (tableRequest nbits w)

end Sys2Proof.Machine
end

