-- ==== Sys2Proof/Machine/Assembler.lean ====
section
/-! DEFINITION. The assembler's spelling of the commands and the pseudo-instructions
(30_encoding.md R59, R60), and performing a list of commands one after the other. -/

namespace Sys2Proof.Machine

/-- A number of the assembler, decimal (30_encoding.md R59). -/
def immediate (n : Nat) : String := "#" ++ toString n

/-- `B<n>`. -/
def batchName (r : BReg) : String := "B" ++ toString r.val

/-- `M<n>`. -/
def matrixName (r : MReg) : String := "M" ++ toString r.val

/-- The assembler syntax of a command (30_encoding.md R59). -/
def assembly : Instr → String
  | .add rd rs1 rs2 => "ADD " ++ batchName rd ++ ", " ++ batchName rs1 ++ ", " ++ batchName rs2
  | .adds rd rs1 x => "ADDS " ++ batchName rd ++ ", " ++ batchName rs1 ++ ", " ++ immediate x.toNat
  | .modp2 rd rs1 k => "MODP2 " ++ batchName rd ++ ", " ++ batchName rs1 ++ ", " ++ immediate k
  | .reduce rd rs1 x =>
    "REDUCE " ++ batchName rd ++ ", " ++ batchName rs1 ++ ", " ++ immediate x.toNat
  | .trns rd rs1 => "TRNS " ++ matrixName rd ++ ", " ++ matrixName rs1
  | .trna rd rs1 => "TRNA " ++ matrixName rd ++ ", " ++ matrixName rs1
  | .ldm rd i x => "LDM " ++ matrixName rd ++ "[" ++ toString i.val ++ "], " ++ immediate x.toNat
  | .stm rs1 i => "STM " ++ matrixName rs1 ++ "[" ++ toString i.val ++ "]"
  | .ldp rd i l x =>
    "LDP " ++ batchName rd ++ "[" ++ toString i.val ++ "]." ++ toString l.val ++ ", "
      ++ immediate x.toNat
  | .stp rs1 i l => "STP " ++ batchName rs1 ++ "[" ++ toString i.val ++ "]." ++ toString l.val
  | .putl rd l rs1 => "PUTL " ++ batchName rd ++ "." ++ toString l.val ++ ", " ++ matrixName rs1
  | .getl rd rs1 l => "GETL " ++ matrixName rd ++ ", " ++ batchName rs1 ++ "." ++ toString l.val
  | .rdcap => "RDCAP"

/-- `MOVB Bd, Bs` (30_encoding.md R60). -/
def movb (rd rs : BReg) : List Instr := [.modp2 rd rs 64]

/-- `CLRB Bd` (30_encoding.md R60). -/
def clrb (rd : BReg) : List Instr := [.modp2 rd rd 0]

/-- `INCB Bd` (30_encoding.md R60). -/
def incb (rd : BReg) : List Instr := [.adds rd rd 1]

/-- `MOVM Md, Ms` (30_encoding.md R60). -/
def movm (rd rs : MReg) : List Instr := [.trns rd rs, .trns rd rd]

/-- Commands performed in the order given, each to completion (20_memory.md R40). -/
def execAll : List Instr → State → Host.Outcome State Fault Refusal
  | [], s => .next s
  | i :: rest, s =>
    match exec i s with
    | .next t => execAll rest t
    | .fault f => .fault f
    | .refused r => .refused r

end Sys2Proof.Machine
end

