-- ==== Sys2Proof/Safety.lean ====
section
/-! DEFINITION. The terms claims are stated in: what a command leaves unchanged, what it answers,
what every response must look like, and the order of checks read straight off a command word. -/

namespace Sys2Proof.Machine

/-- Every batch register keeps its value. -/
def SameBatches (s t : State) : Prop := ∀ r : BReg, t.getBatch r = s.getBatch r

/-- Every batch register but `rd` keeps its value. -/
def SameBatchesBut (rd : BReg) (s t : State) : Prop :=
  ∀ r : BReg, r ≠ rd → t.getBatch r = s.getBatch r

/-- Every matrix register keeps its value. -/
def SameMatrices (s t : State) : Prop := ∀ r : MReg, t.getMatrix r = s.getMatrix r

/-- Every matrix register but `rd` keeps its value. -/
def SameMatricesBut (rd : MReg) (s t : State) : Prop :=
  ∀ r : MReg, r ≠ rd → t.getMatrix r = s.getMatrix r

/-- Everything but the register files and the answers keeps its value: `CAP` (10_state.md R24), what
the host has still to do, the count of resets. -/
def SameRest (s t : State) : Prop :=
  t.hasAccel = s.hasAccel ∧ t.inputs = s.inputs ∧ t.resets = s.resets

/-- Exactly one response was given, this one (30_encoding.md R46). -/
def Answers (s t : State) (st : Status) (v : Word) : Prop :=
  t.responses = ⟨st, v⟩ :: s.responses

/-- Only the response was given: no register and nothing else changes. -/
def OnlyAnswers (s t : State) (st : Status) (v : Word) : Prop :=
  Answers s t st v ∧ SameBatches s t ∧ SameMatrices s t ∧ SameRest s t

/-- The command wrote `X` to batch register `rd`, answered `OK` with `rdata` zero, and changed
nothing else. -/
def WritesBatch (s t : State) (rd : BReg) (X : Batch) : Prop :=
  t.getBatch rd = X ∧ Answers s t .ok 0 ∧ SameBatchesBut rd s t ∧ SameMatrices s t ∧ SameRest s t

/-- The command wrote `A` to matrix register `rd`, answered `OK` with `rdata` zero, and changed
nothing else. -/
def WritesMatrix (s t : State) (rd : MReg) (A : BitMatrix) : Prop :=
  t.getMatrix rd = A ∧ Answers s t .ok 0 ∧ SameMatricesBut rd s t ∧ SameBatches s t ∧ SameRest s t

/-- Requests the host has still to send. -/
def pendingRequests (s : State) : Nat :=
  (s.inputs.filter fun i => i != .reset).length

/-- Invariant: no error response carries a word (30_encoding.md R62). -/
def ErrorsCarryZero (s : State) : Prop := ∀ r ∈ s.responses, r.status ≠ .ok → r.rdata = 0

/-- Two batches agree at bit position `p` of lane `l` of every plane (10_state.md R12). -/
def AgreeAt (l : Lane) (p : Fin 64) (X Y : Batch) : Prop :=
  ∀ i : Index, planeBit X i l p = planeBit Y i l p

/-- The status 30_encoding.md R58 gives a command word, steps 1 to 5 in order. -/
def statusOf (hasAccel : Bool) (cmd : BitVec 32) : Status :=
  match Opcode.ofCode (cmd.extractLsb' 24 8) with
  | none => .errIllegal
  | some o =>
    if o = .trna ∧ hasAccel = false then .errIllegal
    else if cmd &&& o.format.mask ≠ cmd.extractLsb' 24 8 ++ (0 : BitVec 24) then .errIllegal
    else if o = .modp2 ∧ (cmd.extractLsb' 0 8).toNat > 64 then .errParam
    else .ok

/-- The encoding line of an instruction rule: a request is the command `f` reads from its fields
exactly when its word matches `word` under `mask` (30_encoding.md R52). -/
def Encodes (mask word : BitVec 32) (f : Request → Instr) : Prop :=
  ∀ q : Request, q.cmd &&& mask = word ↔ decode q = .ok (f q)

/-- The register number in a command word's `rd` field, bits 23:22 (30_encoding.md R48). -/
def rdOf (q : Request) : Fin 4 := (q.cmd.extractLsb' 22 2).toFin

/-- The register number in a command word's `rs1` field, bits 21:20 (30_encoding.md R48). -/
def rs1Of (q : Request) : Fin 4 := (q.cmd.extractLsb' 20 2).toFin

/-- The register number in a command word's `rs2` field, bits 19:18 (30_encoding.md R48). -/
def rs2Of (q : Request) : Fin 4 := (q.cmd.extractLsb' 18 2).toFin

/-- The `idx` field of a command word, bits 17:12 (30_encoding.md R48). -/
def idxOf (q : Request) : Index := (q.cmd.extractLsb' 12 6).toFin

/-- The `lane` field of a command word, bits 11:9 (30_encoding.md R48). -/
def laneOf (q : Request) : Lane := (q.cmd.extractLsb' 9 3).toFin

/-- The `k` field of a command word, bits 7:0 (30_encoding.md R50). -/
def kOf (q : Request) : Nat := (q.cmd.extractLsb' 0 8).toNat

/-- A step on a state whose oldest input is a request answers `ERR_ILLEGAL` with `rdata` zero, takes
that request from the port and changes nothing else. -/
def AnswersIllegal (s : State) (rest : List Input) : Prop :=
  ∃ t, step s = .next t ∧ OnlyAnswers { s with inputs := rest } t .errIllegal 0

end Sys2Proof.Machine
end

