-- ==== Sys2Proof/Certificates/Slice0/Obligations.lean ====
section
/-! DEFINITION. The statements about the BSOP core, from the numbered rules of the spec. -/

open Sys2Proof Sys2Proof.Machine

/-! ### Encoding -/

/-- Every command a word can present is decoded from its own encoding, every operand at every value
(30_encoding.md R48, R52, R57, R59). -/
def Obligations.DecodeOfEncode : Prop :=
  ∀ i : Instr, i.WellFormed → decode (encode i) = .ok i

/-- A legal request is the encoding of the command it decodes to, which is well formed
(30_encoding.md R57). -/
def Obligations.EncodeOfDecode : Prop :=
  ∀ (q : Request) (i : Instr), decode q = .ok i →
    i.WellFormed ∧ (encode i).cmd = q.cmd ∧ (i.usesData = true → (encode i).data = q.data)

/-- A word decodes to a command of a given row exactly when it matches the row under its mask, and exactly
when its opcode is the row's and its "Must be zero" fields are zero; the masks and matches are the
table's (30_encoding.md R52). R52's further condition on `TRNA`, `HAS_ACCEL` = 1, is not the decoder's:
that it stands in the meaning of `TRNA` is the model's choice, assumption 14 (DEDUCED);
`UndefinedOpcodeIsIllegal` and `TrnaResult` state it. -/
def Obligations.LegalWordsAreTheTable : Prop :=
  (∀ (q : Request) (o : Opcode),
    ((∃ i, decode q = .ok i ∧ i.opcode = o) ↔ q.cmd &&& o.format.mask = o.matchWord) ∧
    (q.cmd &&& o.format.mask = o.matchWord ↔
      q.cmd.extractLsb' 24 8 = o.code ∧ o.format.mustBeZero (Fields.ofCmd q.cmd))) ∧
  Opcode.all.map (fun o => (o.matchWord, o.format.mask)) =
    [(0x01000000, 0xFF03FFFF), (0x02000000, 0xFF0FFFFF), (0x03000000, 0xFF0FFF00),
     (0x04000000, 0xFF0FFFFF), (0x08000000, 0xFF0FFFFF), (0x09000000, 0xFF0FFFFF),
     (0x10000000, 0xFF3C0FFF), (0x11000000, 0xFFCC0FFF), (0x12000000, 0xFF3C01FF),
     (0x13000000, 0xFFCC01FF), (0x14000000, 0xFF0FF1FF), (0x15000000, 0xFF0FF1FF),
     (0x1F000000, 0xFFFFFFFF)]

/-- The decoder is total and unambiguous: no word matches two rows, and a word that matches no row is
refused whatever its data operand (30_encoding.md R57). -/
def Obligations.OneMeaningPerWord : Prop :=
  (∀ (w : BitVec 32) (o o' : Opcode), w &&& o.format.mask = o.matchWord →
    w &&& o'.format.mask = o'.matchWord → o = o') ∧
  (∀ w : BitVec 32, (∀ o : Opcode, w &&& o.format.mask ≠ o.matchWord) →
    ∀ d : Word, ∃ e, decode ⟨w, d⟩ = .error e)

/-- `ADDS`, `REDUCE`, `LDM` and `LDP` take all 64 bits of the data operand; every other command ignores
it (30_encoding.md R51). -/
def Obligations.DataOperandUse : Prop :=
  ∀ (q : Request) (i : Instr), decode q = .ok i →
    (i.opcode ∈ [Opcode.adds, .reduce, .ldm, .ldp] → i.data = q.data) ∧
    (i.opcode ∉ [Opcode.adds, .reduce, .ldm, .ldp] → ∀ d : Word, decode ⟨q.cmd, d⟩ = .ok i)

/-- The example encodings of 30_encoding.md R59 decode to the commands they are given for. -/
def Obligations.SampleWordsDecode : Prop :=
  decode ⟨0x01180000, 0⟩ = .ok (.add 0 1 2) ∧ decode ⟨0x02500000, 1⟩ = .ok (.adds 1 1 1) ∧
  decode ⟨0x03800038, 0⟩ = .ok (.modp2 2 0 56) ∧ decode ⟨0x04000000, 7⟩ = .ok (.reduce 0 0 7) ∧
  decode ⟨0x08400000, 0⟩ = .ok (.trns 1 0) ∧ decode ⟨0x09400000, 0⟩ = .ok (.trna 1 0) ∧
  decode ⟨0x1113F000, 0⟩ = .ok (.stm 1 63) ∧ decode ⟨0x1303E000, 0⟩ = .ok (.stp 0 62 0) ∧
  (∀ v : Word, decode ⟨0x10005000, v⟩ = .ok (.ldm 0 5 v)) ∧
  (∀ v : Word, decode ⟨0x12C3FE00, v⟩ = .ok (.ldp 3 63 7 v)) ∧
  decode ⟨0x14100600, 0⟩ = .ok (.putl 0 3 1) ∧ decode ⟨0x15800600, 0⟩ = .ok (.getl 2 0 3) ∧
  decode ⟨0x1F000000, 0⟩ = .ok .rdcap

/-! ### Steps, errors, reset -/

/-- A step on a legal request is the command it decodes to, on the state with that request taken from
the port; a request presented first is performed first (20_memory.md R40, 30_encoding.md R45). The
port as a list in the state is the model's choice, assumption 3. -/
def Obligations.StepRunsDecoded : Prop :=
  (∀ (s : State) (q : Request) (rest : List Input) (i : Instr),
    s.inputs = .request q :: rest → decode q = .ok i →
      step s = exec i { s with inputs := rest }) ∧
  (∀ (s : State) (q : Request) (i : Instr), decode q = .ok i → step (s.present q) = exec i s)

/-- Commands the host presents are performed in that order, each on the state the one before left
(20_memory.md R40). The pending inputs as a list in the state are the model's choice, assumption 3.
Requests that are no legal command, and resets, are left out here; `OrderOfChecks`,
`UndefinedOpcodeIsIllegal` and `ResetEventEffect` state their steps. -/
def Obligations.RunFollowsCommandOrder : Prop :=
  ∀ (is : List Instr) (s : State) (rest : List Input), (∀ i ∈ is, i.WellFormed) →
    s.inputs = is.map (fun i => .request (encode i)) ++ rest →
      core.run is.length s = execAll is { s with inputs := rest }

/-- Every state has a next state; an idle core keeps its state; a request gets exactly one response
and leaves the port (70_reset_and_hazards.md R133, 60_exceptions.md R126, 30_encoding.md R46). The
idle step and the two lists of the port are the model's choice, assumption 3. -/
def Obligations.StepAlwaysAnswers : Prop :=
  ∀ s : State, ∃ t, step s = .next t ∧ (s.inputs = [] → t = s) ∧
    (∀ q rest, s.inputs = .request q :: rest →
      t.inputs = rest ∧ ∃ r : Response, t.responses = r :: s.responses)

/-- The status of every response is the one the order of checks gives, from the command word and
`HAS_ACCEL` alone, and an error changes nothing (30_encoding.md R58). -/
def Obligations.OrderOfChecks : Prop :=
  ∀ (s : State) (q : Request) (rest : List Input), s.inputs = .request q :: rest →
    ∃ t v, step s = .next t ∧
      Answers { s with inputs := rest } t (statusOf s.hasAccel q.cmd) v ∧
      (statusOf s.hasAccel q.cmd ≠ .ok →
        OnlyAnswers { s with inputs := rest } t (statusOf s.hasAccel q.cmd) 0)

/-- The status a request gets does not depend on register contents or on the data operand
(00_scope.md R11). -/
def Obligations.StatusIndependentOfData : Prop :=
  ∀ (s s' : State) (q q' : Request) (rest rest' : List Input),
    s.inputs = .request q :: rest → s'.inputs = .request q' :: rest' → q.cmd = q'.cmd →
    s.hasAccel = s'.hasAccel →
      ∃ t t' r r', step s = .next t ∧ step s' = .next t' ∧ t.responses = r :: s.responses ∧
        t'.responses = r' :: s'.responses ∧ r.status = r'.status

/-- A 1 in a bit the command's format does not use, bit 8 among them, draws `ERR_ILLEGAL` and changes
nothing (30_encoding.md R53). -/
def Obligations.MustBeZeroBitIsIllegal : Prop :=
  ∀ (s : State) (q : Request) (rest : List Input) (o : Opcode),
    s.inputs = .request q :: rest → q.cmd.extractLsb' 24 8 = o.code →
    (¬ o.format.mustBeZero (Fields.ofCmd q.cmd) ∨ q.cmd.getLsbD 8 = true) → AnswersIllegal s rest

/-- An opcode that is none of the 13, or 0x09 without the accelerated datapath, draws `ERR_ILLEGAL` and
changes nothing, whatever the other bits (30_encoding.md R54, R55). -/
def Obligations.UndefinedOpcodeIsIllegal : Prop :=
  ∀ (s : State) (q : Request) (rest : List Input), s.inputs = .request q :: rest →
    ((q.cmd.extractLsb' 24 8 ∉ ([0x01, 0x02, 0x03, 0x04, 0x08, 0x09, 0x10, 0x11, 0x12, 0x13, 0x14,
        0x15, 0x1F] : List (BitVec 8))) ∨
      (q.cmd.extractLsb' 24 8 = (0x09 : BitVec 8) ∧ s.hasAccel = false)) → AnswersIllegal s rest

/-- `MODP2` with a must-be-zero bit set and `k` > 64 is `ERR_ILLEGAL`, not `ERR_PARAM`
(60_exceptions.md R117). -/
def Obligations.IllegalBeforeParam : Prop :=
  ∀ (s : State) (q : Request) (rest : List Input), s.inputs = .request q :: rest →
    q.cmd.extractLsb' 24 8 = (0x03 : BitVec 8) → 64 < kOf q →
    q.cmd &&& 0x000FFF00 ≠ 0 → AnswersIllegal s rest

/-- A step whose response is an error leaves every batch and matrix register as it found them, and
carries no word (60_exceptions.md R118). -/
def Obligations.ErrorsChangeNothing : Prop :=
  ∀ (s t : State) (st : Status) (v : Word), step s = .next t →
    t.responses = ⟨st, v⟩ :: s.responses → st ≠ .ok →
      SameBatches s t ∧ SameMatrices s t ∧ v = 0

/-- An error, and an `OK` to a word that is no `STM`, `STP` or `RDCAP`, carries `rdata` zero
(30_encoding.md R62). -/
def Obligations.RdataZeroUnlessRead : Prop :=
  ∀ (s t : State) (q : Request) (rest : List Input) (st : Status) (v : Word),
    s.inputs = .request q :: rest → step s = .next t → t.responses = ⟨st, v⟩ :: s.responses →
    (st ≠ .ok ∨ q.cmd.extractLsb' 24 8 ∉ ([0x11, 0x13, 0x1F] : List (BitVec 8))) → v = 0

/-- Every command but `MODP2` with `k` > 64 answers `OK` in every state, whatever its operands and the
register contents; `TRNA` where it is implemented (60_exceptions.md R114, 30_encoding.md R55). -/
def Obligations.LegalCommandsAnswerOk : Prop :=
  ∀ (i : Instr) (s : State), (∀ rd rs1 k, i = .modp2 rd rs1 k → k ≤ 64) →
    (i.opcode = .trna → s.hasAccel = true) → ∃ t v, exec i s = .next t ∧ Answers s t .ok v

/-- A command after an error does what it would have done without the error: it leaves the same
registers and gives the same response (60_exceptions.md R119). -/
def Obligations.ErrorsLeaveNoTrace : Prop :=
  ∀ (i : Instr) (s e t : State) (st : Status), OnlyAnswers s e st 0 → exec i s = .next t →
    ∃ u r, exec i e = .next u ∧ SameBatches t u ∧ SameMatrices t u ∧ SameRest t u ∧
      t.responses = r :: s.responses ∧ u.responses = r :: e.responses

/-- Reading an element changes no register, and writing the same value twice leaves the registers that
writing it once leaves (20_memory.md R37). -/
def Obligations.ReadsAreSilentWritesIdempotent : Prop :=
  (∀ (i : Instr) (s t : State), i.opcode ∈ [Opcode.stm, .stp, .rdcap] → exec i s = .next t →
    SameBatches s t ∧ SameMatrices s t ∧ SameRest s t) ∧
  (∀ (i : Instr) (s t u : State), i.opcode ∈ [Opcode.ldm, .ldp, .putl, .getl] →
    exec i s = .next t → exec i t = .next u → SameBatches t u ∧ SameMatrices t u ∧ SameRest t u)

/-- Invariant of every step: no error response carries a word (30_encoding.md R62). -/
def Obligations.ErrorsCarryZeroKept : Prop :=
  ∀ s t : State, ErrorsCarryZero s → step s = .next t → ErrorsCarryZero t

/-- The invariant holds after reset. That no response stands in the list then is the model's choice,
assumption 3. -/
def Obligations.ErrorsCarryZeroAtReset : Prop := ErrorsCarryZero State.reset

/-- Invariant of every step: responses given and requests pending together stay as many, and no
response already given changes (30_encoding.md R46). The two lists are the model's choice of form,
assumption 3; that a reset keeps the responses is its choice too, assumption 12. -/
def Obligations.OneResponsePerRequest : Prop :=
  ∀ s t : State, step s = .next t →
    t.responses.length + pendingRequests t = s.responses.length + pendingRequests s ∧
    s.responses <:+ t.responses

/-- `CAP` has its hardwired value in every state, and no step changes it (10_state.md R24). -/
def Obligations.CapabilityIsHardwired : Prop :=
  (∀ s t : State, step s = .next t → capability t.hasAccel = capability s.hasAccel) ∧
  (∀ a : Bool,
    (capability a).extractLsb' 0 8 = BitVec.ofNat 8 64 ∧
    (capability a).extractLsb' 8 8 = BitVec.ofNat 8 8 ∧
    (capability a).extractLsb' 16 8 = BitVec.ofNat 8 56 ∧
    (capability a).extractLsb' 24 4 = BitVec.ofNat 4 4 ∧
    (capability a).extractLsb' 28 4 = BitVec.ofNat 4 4 ∧
    (capability a).getLsbD 32 = a ∧ (capability a).extractLsb' 33 31 = 0) ∧
  capability false = 0x0000000044380840 ∧ capability true = 0x0000000144380840

/-- The reset event leaves every register element at a value nothing constrains, `CAP` and the
answers as they were, and the core ready for the next input. That the elements are the free values
`Config.resetLane` and `Config.resetWord` of a fresh reset count, whatever the registers held before,
and that the host keeps its answers, is the model's choice, assumptions 1, 4, 12 and 15
(70_reset_and_hazards.md R129, 10_state.md R30). -/
def Obligations.ResetEventEffect : Prop :=
  ∀ (s : State) (rest : List Input), s.inputs = .reset :: rest →
    ∃ t, step s = .next t ∧ t.inputs = rest ∧ t.responses = s.responses ∧
      t.hasAccel = s.hasAccel ∧ t.resets = s.resets + 1 ∧
      (∀ (r : BReg) (i : Index) (l : Lane),
        (t.getBatch r)[i][l] = Config.resetLane (s.resets + 1) r.val i.val l.val) ∧
      (∀ (r : MReg) (i : Index), (t.getMatrix r)[i] = Config.resetWord (s.resets + 1) r.val i.val)

/-- After reset a first read of any element answers `OK` with the value it holds: not an error
(10_state.md R29, R30). That this value is the free `Config.resetLane` or `Config.resetWord` is the
model's choice, assumption 1; that nothing is in hand and nothing is answered is said of the two
lists of the port, the model's choice, assumption 3. -/
def Obligations.ResetStateReads : Prop :=
  State.reset.inputs = [] ∧ State.reset.responses = [] ∧
  (∀ (r : BReg) (i : Index) (l : Lane), ∃ t, exec (.stp r i l) State.reset = .next t ∧
    OnlyAnswers State.reset t .ok (Config.resetLane 0 r.val i.val l.val)) ∧
  (∀ (r : MReg) (i : Index), ∃ t, exec (.stm r i) State.reset = .next t ∧
    OnlyAnswers State.reset t .ok (Config.resetWord 0 r.val i.val))

/-- Which commands write which register file (10_state.md R20, R21). -/
def Obligations.WritersOfEachFile : Prop :=
  ∀ (i : Instr) (s t : State), exec i s = .next t →
    (¬ SameBatches s t → i.opcode ∈ [Opcode.add, .adds, .modp2, .reduce, .ldp, .putl]) ∧
    (¬ SameMatrices s t → i.opcode ∈ [Opcode.trns, .trna, .getl, .ldm])

/-! ### The Bitsliced Arithmetic Engine -/

/-- The carry-propagate step is a full adder at each of the 512 bit positions, and its carry is the
majority (40_arith.md R63). -/
def Obligations.FullAdderAtEachBit : Prop :=
  ∀ (x y z : VectorWord) (l : Lane) (p : Fin 64),
    let bit := fun v : VectorWord => v[l].getLsbD p.val
    (fullAdder x y z).1 = vxor (vxor x y) z ∧
    (fullAdder x y z).2 = vor (vand x y) (vand z (vxor x y)) ∧
    (bit x).toNat + (bit y).toNat + (bit z).toNat =
      (bit (fullAdder x y z).1).toNat + 2 * (bit (fullAdder x y z).2).toNat ∧
    bit (fullAdder x y z).2 = (bit x && bit y || bit x && bit z || bit y && bit z)

/-- `int` maps batches one to one onto 512-tuples of 64-bit numbers (10_state.md R17). -/
def Obligations.IntegersOfBatchBijective : Prop :=
  (∀ (X : Batch) (n : Fin 512), intOf X n < 2 ^ 64) ∧
  (∀ f : Fin 512 → Nat, (∀ n, f n < 2 ^ 64) → ∃! X : Batch, ∀ n, intOf X n = f n)

/-- The ripple chain adds each of the 512 pairs of integers modulo 2^64 (40_arith.md R66). -/
def Obligations.RippleIsAddition : Prop :=
  ∀ (a b : Batch) (n : Fin 512), intOf (ripple a b) n = (intOf a n + intOf b n) % 2 ^ 64

/-- The scalar's planes are the batch of 512 copies of it, and adding a scalar equals adding that
batch, in value and as commands (40_arith.md R67, R69). -/
def Obligations.ScalarAdditionIsAddition : Prop :=
  (∀ (x : Word) (i : Index), (scalarPlanes x)[i] = bcast (x.getLsbD (63 - i.val))) ∧
  (∀ (x : Word) (n : Fin 512), intOf (scalarPlanes x) n = x.toNat) ∧
  (∀ (a : Batch) (x : Word) (n : Fin 512),
    intOf (ripple a (scalarPlanes x)) n = (intOf a n + x.toNat) % 2 ^ 64) ∧
  (∀ (s : State) (rd rs1 rt : BReg) (x : Word), s.getBatch rt = scalarPlanes x →
    exec (.adds rd rs1 x) s = exec (.add rd rs1 rt) s)

/-- Truncation is reduction modulo 2^k, and with it `REDUCE` is `(H + i) mod 2^56`, below 2^56, its
planes 0..7 zero (40_arith.md R73). -/
def Obligations.TruncationIsModulo : Prop :=
  (∀ (a : Batch) (k : Nat) (n : Fin 512), k ≤ 64 → intOf (truncate a k) n = intOf a n % 2 ^ k) ∧
  (∀ (h : Batch) (x : Word) (n : Fin 512),
    intOf (truncate (ripple h (scalarPlanes x)) 56) n = (intOf h n + x.toNat) % 2 ^ 56) ∧
  (∀ (h : Batch) (x : Word) (n : Fin 512),
    intOf (truncate (ripple h (scalarPlanes x)) 56) n < 2 ^ 56) ∧
  (∀ (h : Batch) (x : Word) (i : Index), i.val < 8 →
    (truncate (ripple h (scalarPlanes x)) 56)[i] = zeroPlane)

/-- `ADD`: its encoding, its result plane by plane and as integers, its response, and all it leaves
unchanged, for every choice of the three registers (40_arith.md R65). -/
def Obligations.AddResult : Prop :=
  Encodes 0xFF03FFFF 0x01000000 (fun q => .add (rdOf q) (rs1Of q) (rs2Of q)) ∧
  ∀ (s : State) (rd rs1 rs2 : BReg), ∃ t, exec (.add rd rs1 rs2) s = .next t ∧
    WritesBatch s t rd (ripple (s.getBatch rs1) (s.getBatch rs2)) ∧
    ∀ n, intOf (t.getBatch rd) n = (intOf (s.getBatch rs1) n + intOf (s.getBatch rs2) n) % 2 ^ 64

/-- `ADDS`: its encoding, its result, its response, and all it leaves unchanged
(40_arith.md R68). -/
def Obligations.AddsResult : Prop :=
  Encodes 0xFF0FFFFF 0x02000000 (fun q => .adds (rdOf q) (rs1Of q) q.data) ∧
  ∀ (s : State) (rd rs1 : BReg) (x : Word), ∃ t, exec (.adds rd rs1 x) s = .next t ∧
    WritesBatch s t rd (ripple (s.getBatch rs1) (scalarPlanes x)) ∧
    ∀ n, intOf (t.getBatch rd) n = (intOf (s.getBatch rs1) n + x.toNat) % 2 ^ 64

/-- `MODP2`: its encoding; with `k` ≤ 64 its result, response and frame; with `k` > 64 `ERR_PARAM` and
nothing else, `rd` = `rs1` included (40_arith.md R71). -/
def Obligations.Modp2Result : Prop :=
  Encodes 0xFF0FFF00 0x03000000 (fun q => .modp2 (rdOf q) (rs1Of q) (kOf q)) ∧
  (∀ (s : State) (rd rs1 : BReg) (k : Nat), k ≤ 64 →
    ∃ t, exec (.modp2 rd rs1 k) s = .next t ∧
      WritesBatch s t rd (truncate (s.getBatch rs1) k) ∧
      (∀ i : Index, i.val < 64 - k → (t.getBatch rd)[i] = zeroPlane) ∧
      (∀ i : Index, 64 - k ≤ i.val → (t.getBatch rd)[i] = (s.getBatch rs1)[i]) ∧
      ∀ n, intOf (t.getBatch rd) n = intOf (s.getBatch rs1) n % 2 ^ k) ∧
  (∀ (s : State) (rd rs1 : BReg) (k : Nat), 64 < k →
    ∃ t, exec (.modp2 rd rs1 k) s = .next t ∧ OnlyAnswers s t .errParam 0)

/-- `ERR_PARAM`, code 1, is raised by `MODP2` with `k` > 64 and by nothing else: a request is answered
`ERR_PARAM` exactly when its word is a legal `MODP2` word with `k` > 64, and then `rdata` is zero and
nothing changes (60_exceptions.md R112). -/
def Obligations.ParamErrorOnlyModp2 : Prop :=
  ∀ (s t : State) (q : Request) (rest : List Input), s.inputs = .request q :: rest →
    step s = .next t →
    ((∃ v, Answers s t .errParam v) ↔ q.cmd &&& 0xFF0FFF00 = 0x03000000 ∧ 64 < kOf q) ∧
    ((∃ v, Answers s t .errParam v) → OnlyAnswers { s with inputs := rest } t .errParam 0) ∧
    Status.errParam.code = 1

/-- `REDUCE`: its encoding, its result, its response, and all it leaves unchanged; planes 0..7 of the
result are zero; and it leaves the registers that `ADDS` followed by `MODP2` with 56 leaves
(40_arith.md R72, R73). -/
def Obligations.ReduceResult : Prop :=
  Encodes 0xFF0FFFFF 0x04000000 (fun q => .reduce (rdOf q) (rs1Of q) q.data) ∧
  ∀ (s : State) (rd rs1 : BReg) (x : Word), ∃ t, exec (.reduce rd rs1 x) s = .next t ∧
    WritesBatch s t rd (truncate (ripple (s.getBatch rs1) (scalarPlanes x)) 56) ∧
    (∀ i : Index, i.val < 8 → (t.getBatch rd)[i] = zeroPlane) ∧
    (∀ n, intOf (t.getBatch rd) n = (intOf (s.getBatch rs1) n + x.toNat) % 2 ^ 56) ∧
    ∃ u, execAll [.adds rd rs1 x, .modp2 rd rd 56] s = .next u ∧
      SameBatches t u ∧ SameMatrices t u ∧ SameRest t u

/-- The laws the source requires of the arithmetic engine (40_arith.md R75). -/
def Obligations.ArithmeticLaws : Prop :=
  (∀ a b : Batch, ripple a b = ripple b a) ∧
  (∀ a : Batch, ripple a (scalarPlanes 0) = a) ∧
  (∀ (a : Batch) (k1 k2 : Nat), k1 ≤ k2 → k2 ≤ 64 →
    truncate (truncate a k2) k1 = truncate a k1) ∧
  (∀ a : Batch, truncate a 64 = a) ∧
  (∀ a : Batch, truncate a 0 = zeroBatch) ∧
  (∀ (s : State) (rd rs1 : BReg) (k : Nat), 64 < k →
    ∃ t, exec (.modp2 rd rs1 k) s = .next t ∧ Answers s t .errParam 0)

/-- The in-place form of each arithmetic command leaves in its register what the functional form
leaves in any other destination (40_arith.md R76, 10_state.md R22). -/
def Obligations.InPlaceAgreesWithFunctional : Prop :=
  ∀ (s t u : State) (rd rs1 rs2 : BReg) (x : Word) (k : Nat), k ≤ 64 →
    ((exec (.add rs1 rs1 rs2) s = .next t ∧ exec (.add rd rs1 rs2) s = .next u) ∨
     (exec (.adds rs1 rs1 x) s = .next t ∧ exec (.adds rd rs1 x) s = .next u) ∨
     (exec (.modp2 rs1 rs1 k) s = .next t ∧ exec (.modp2 rd rs1 k) s = .next u) ∨
     (exec (.reduce rs1 rs1 x) s = .next t ∧ exec (.reduce rd rs1 x) s = .next u)) →
    t.getBatch rs1 = u.getBatch rd

/-- `REDUCE` in place with several indices adds them all modulo 2^56 (40_arith.md R79). -/
def Obligations.RepeatedReduction : Prop :=
  ∀ (xs : List Word) (s : State) (rd : BReg), xs ≠ [] →
    ∃ t, execAll (xs.map fun x => .reduce rd rd x) s = .next t ∧
      ∀ n, intOf (t.getBatch rd) n =
        (intOf (s.getBatch rd) n + (xs.map BitVec.toNat).sum) % 2 ^ 56

/-- Bit position `p` of lane `l` of every batch register after an arithmetic command depends only on
that bit position of the batch registers before it (10_state.md R12, 70_reset_and_hazards.md
R130). -/
def Obligations.LanesAreIndependent : Prop :=
  ∀ (i : Instr) (s s' t t' : State) (l : Lane) (p : Fin 64),
    i.opcode ∈ [Opcode.add, .adds, .modp2, .reduce] →
    (∀ r, AgreeAt l p (s.getBatch r) (s'.getBatch r)) →
    exec i s = .next t → exec i s' = .next t' →
    ∀ r, AgreeAt l p (t.getBatch r) (t'.getBatch r)

/-! ### The Bit-Matrix Transpose Engine -/

/-- `TRNS`: its encoding, where each bit goes, its response, and all it leaves unchanged
(41_transpose.md R82, R93). -/
def Obligations.TrnsResult : Prop :=
  Encodes 0xFF0FFFFF 0x08000000 (fun q => .trns (rdOf q) (rs1Of q)) ∧
  ∀ (s : State) (rd rs1 : MReg), ∃ t, exec (.trns rd rs1) s = .next t ∧
    WritesMatrix s t rd (transpose (s.getMatrix rs1)) ∧
    ∀ k j : Index, (t.getMatrix rd)[63 - j.val].getLsbD (63 - k.val) =
      (s.getMatrix rs1)[k].getLsbD j.val

/-- `TRNA`: its encoding; with `HAS_ACCEL` = 1 it answers the same next state as `TRNS`; with
`HAS_ACCEL` = 0 `ERR_ILLEGAL` and nothing else (41_transpose.md R94). The encoding clause holds whatever
`HAS_ACCEL` is: the model's choice, assumption 14 (DEDUCED). The clause that writes the result as
`transposeAccel` rests on the datapath's byte numbering and gather reading, assumption 8 (PRESUMED),
and on the form of its stage 3, assumption 13 (DEDUCED). -/
def Obligations.TrnaResult : Prop :=
  Encodes 0xFF0FFFFF 0x09000000 (fun q => .trna (rdOf q) (rs1Of q)) ∧
  (∀ (s : State) (rd rs1 : MReg), s.hasAccel = true →
    ∃ t, exec (.trna rd rs1) s = .next t ∧ exec (.trns rd rs1) s = .next t ∧
      WritesMatrix s t rd (transposeAccel (s.getMatrix rs1)) ∧
      ∀ k j : Index, (t.getMatrix rd)[63 - j.val].getLsbD (63 - k.val) =
        (s.getMatrix rs1)[k].getLsbD j.val) ∧
  (∀ (s : State) (rd rs1 : MReg), s.hasAccel = false →
    ∃ t, exec (.trna rd rs1) s = .next t ∧ OnlyAnswers s t .errIllegal 0)

/-- The properties the source requires of the transpose: zero to zero, self-inverse, a bijection and a
permutation of the 4096 bit positions, linear, and scenario 4 (41_transpose.md R84). -/
def Obligations.TransposeProperties : Prop :=
  transpose zeroMatrix = zeroMatrix ∧
  (∀ A : BitMatrix, transpose (transpose A) = A) ∧
  Function.Bijective transpose ∧
  (∃ σ : Equiv.Perm (Index × Fin 64), ∀ (A : BitMatrix) (p : Index × Fin 64),
    (transpose A)[p.1].getLsbD p.2.val = A[(σ p).1].getLsbD (σ p).2.val) ∧
  (∀ A B : BitMatrix, transpose (Vector.ofFn fun i => A[i] ^^^ B[i]) =
    Vector.ofFn fun i => (transpose A)[i] ^^^ (transpose B)[i]) ∧
  (∀ A : BitMatrix, (∀ i : Index, A[i] = if i.val < 2 then 0xFFFFFFFFFFFFFFF0 else 0) →
    ∀ r : Index, (transpose A)[r] = if r.val < 60 then 0xC000000000000000 else 0)

/-- With column `c` of a word its bit `63 − c`, entry (r, c) of `T(A)` is entry (c, r) of `A`, and the
diagonal is fixed (41_transpose.md R83). -/
def Obligations.TransposeSwapsEntries : Prop :=
  let entry := fun (A : BitMatrix) (r k : Index) => A[r].getLsbD (63 - k.val)
  (∀ (A : BitMatrix) (r k : Index), entry (transpose A) r k = entry A k r) ∧
  (∀ (A : BitMatrix) (r : Index), entry (transpose A) r r = A[r].getLsbD (63 - r.val))

/-- The scalar algorithm, six rounds of masked exchanges, computes `T` (41_transpose.md R87). The order
of the exchanges of a round and the bound of the loop in `transposeScalar` are the model's choice,
assumption 13 (DEDUCED). -/
def Obligations.ScalarAlgorithmIsTranspose : Prop :=
  ∀ A : BitMatrix, transposeScalar A = transpose A

/-- The accelerated datapath, three stages, computes `T` (41_transpose.md R92). The byte numbering and the
gather reading in its stages are the spec's general knowledge (93_implementation_defined.md G1, G3),
assumption 8 (PRESUMED); its stage 3 is written as one routing of bytes, assumption 13 (DEDUCED). -/
def Obligations.AcceleratedDatapathIsTranspose : Prop :=
  ∀ A : BitMatrix, transposeAccel A = transpose A

/-- Stage 2 in closed form is what the byte-affine instruction gives with the gathered word as matrix
operand and the constant as data operand; the instruction's meaning is the spec's general knowledge
(41_transpose.md R90, 93_implementation_defined.md G2, assumption 8). -/
def Obligations.BlockTransposeIsByteAffine : Prop :=
  ∀ q : Word, blockTranspose q = byteAffine q stageTwoConstant ∧
    ∀ i j : Fin 8, (byteOf (blockTranspose q) j).getLsbD i.val =
      (byteOf q ⟨7 - i.val, by omega⟩).getLsbD j.val

/-! ### Data movement and the capability register -/

/-- `LDM`: its encoding, the one word it writes, its response, and all it leaves unchanged
(42_datamove.md R99). -/
def Obligations.LdmResult : Prop :=
  Encodes 0xFF3C0FFF 0x10000000 (fun q => .ldm (rdOf q) (idxOf q) q.data) ∧
  ∀ (s : State) (rd : MReg) (idx : Index) (v : Word), ∃ t, exec (.ldm rd idx v) s = .next t ∧
    (∀ (r : MReg) (i : Index),
      (t.getMatrix r)[i] = if r = rd ∧ i = idx then v else (s.getMatrix r)[i]) ∧
    Answers s t .ok 0 ∧ SameBatches s t ∧ SameRest s t

/-- `STM`: its encoding, the word it answers, and that no state changes (42_datamove.md R100). -/
def Obligations.StmResult : Prop :=
  Encodes 0xFFCC0FFF 0x11000000 (fun q => .stm (rs1Of q) (idxOf q)) ∧
  ∀ (s : State) (rs1 : MReg) (idx : Index), ∃ t, exec (.stm rs1 idx) s = .next t ∧
    OnlyAnswers s t .ok (s.getMatrix rs1)[idx]

/-- `LDP`: its encoding, the one lane it writes, the bits of integers that are, its response, and all
it leaves unchanged (42_datamove.md R101). -/
def Obligations.LdpResult : Prop :=
  Encodes 0xFF3C01FF 0x12000000 (fun q => .ldp (rdOf q) (idxOf q) (laneOf q) q.data) ∧
  ∀ (s : State) (rd : BReg) (idx : Index) (lane : Lane) (v : Word),
    ∃ t, exec (.ldp rd idx lane v) s = .next t ∧
      (∀ (r : BReg) (i : Index) (l : Lane), (t.getBatch r)[i][l] =
        if r = rd ∧ i = idx ∧ l = lane then v else (s.getBatch r)[i][l]) ∧
      (∀ p : Fin 64, intBit (t.getBatch rd) ⟨64 * lane.val + p.val, by omega⟩
        ⟨63 - idx.val, by omega⟩ = v.getLsbD p.val) ∧
      Answers s t .ok 0 ∧ SameMatrices s t ∧ SameRest s t

/-- `STP`: its encoding, the lane it answers, and that no state changes (42_datamove.md R102). -/
def Obligations.StpResult : Prop :=
  Encodes 0xFFCC01FF 0x13000000 (fun q => .stp (rs1Of q) (idxOf q) (laneOf q)) ∧
  ∀ (s : State) (rs1 : BReg) (idx : Index) (lane : Lane), ∃ t,
    exec (.stp rs1 idx lane) s = .next t ∧ OnlyAnswers s t .ok (s.getBatch rs1)[idx][lane]

/-- `PUTL`: its encoding, the lane column it writes, its response, all it leaves unchanged, and that
64 `LDP` commands leave the same registers (42_datamove.md R103). -/
def Obligations.PutlResult : Prop :=
  Encodes 0xFF0FF1FF 0x14000000 (fun q => .putl (rdOf q) (laneOf q) (rs1Of q)) ∧
  ∀ (s : State) (rd : BReg) (lane : Lane) (rs1 : MReg), ∃ t u,
    exec (.putl rd lane rs1) s = .next t ∧
    (∀ (r : BReg) (i : Index) (l : Lane), (t.getBatch r)[i][l] =
      if r = rd ∧ l = lane then (s.getMatrix rs1)[i] else (s.getBatch r)[i][l]) ∧
    Answers s t .ok 0 ∧ SameMatrices s t ∧ SameRest s t ∧
    execAll ((List.finRange 64).map fun i => .ldp rd i lane (s.getMatrix rs1)[i]) s = .next u ∧
    SameBatches t u ∧ SameMatrices t u

/-- `GETL`: its encoding, the matrix register it overwrites, its response, all it leaves unchanged, and
that reading 64 lanes with `STP` and writing them with `LDM` leaves the same matrix registers
(42_datamove.md R104). -/
def Obligations.GetlResult : Prop :=
  Encodes 0xFF0FF1FF 0x15000000 (fun q => .getl (rdOf q) (rs1Of q) (laneOf q)) ∧
  ∀ (s : State) (rd : MReg) (rs1 : BReg) (lane : Lane), ∃ t u,
    exec (.getl rd rs1 lane) s = .next t ∧
    (∀ (r : MReg) (i : Index), (t.getMatrix r)[i] =
      if r = rd then (s.getBatch rs1)[i][lane] else (s.getMatrix r)[i]) ∧
    Answers s t .ok 0 ∧ SameBatches s t ∧ SameRest s t ∧
    execAll ((List.finRange 64).flatMap fun i =>
      [.stp rs1 i lane, .ldm rd i (s.getBatch rs1)[i][lane]]) s = .next u ∧
    SameBatches t u ∧ SameMatrices t u

/-- What is written is read back: through `PUTL` and `GETL`, through `LDM` and `STM`, through `LDP` and
`STP` (42_datamove.md R105). -/
def Obligations.DataMoveRoundTrips : Prop :=
  ∀ (s : State) (b : BReg) (m d : MReg) (i : Index) (l : Lane) (v : Word),
    (∃ t, execAll [.putl b l m, .getl d b l] s = .next t ∧ t.getMatrix d = s.getMatrix m) ∧
    (∃ t, execAll [.ldm d i v, .stm d i] s = .next t ∧
      t.responses = ⟨.ok, v⟩ :: ⟨.ok, 0⟩ :: s.responses) ∧
    (∃ t, execAll [.ldp b i l v, .stp b i l] s = .next t ∧
      t.responses = ⟨.ok, v⟩ :: ⟨.ok, 0⟩ :: s.responses)

/-- A block of 64 row-major integers, transposed and put into a lane: integer `x_k` becomes integer
number `64·l + 63 − k` of the batch (41_transpose.md R95). -/
def Obligations.BlockBecomesIntegers : Prop :=
  ∀ (s : State) (b : BReg) (l : Lane) (ms md : MReg), ∃ t u,
    exec (.trns md ms) s = .next t ∧
    (∀ r k : Index, (t.getMatrix md)[r].getLsbD (63 - k.val) =
      (s.getMatrix ms)[k].getLsbD (63 - r.val)) ∧
    exec (.putl b l md) t = .next u ∧
    ∀ k : Index, intOf (u.getBatch b) ⟨64 * l.val + (63 - k.val), by omega⟩ =
      (s.getMatrix ms)[k].toNat

/-- Transpose, add a scalar, transpose back: each of the 64 row-major integers has the scalar added
modulo 2^64; with `REDUCE` modulo 2^56 (41_transpose.md R98). -/
def Obligations.TransposeComputeTransposeBack : Prop :=
  ∀ (s : State) (b : BReg) (m : MReg) (l : Lane) (x : Word),
    (∃ t, execAll [.trns m m, .putl b l m, .adds b b x, .getl m b l, .trns m m] s = .next t ∧
      ∀ k : Index, (t.getMatrix m)[k].toNat =
        ((s.getMatrix m)[k].toNat + x.toNat) % 2 ^ 64) ∧
    (∃ t, execAll [.trns m m, .putl b l m, .reduce b b x, .getl m b l, .trns m m] s = .next t ∧
      ∀ k : Index, (t.getMatrix m)[k].toNat =
        ((s.getMatrix m)[k].toNat + x.toNat) % 2 ^ 56)

/-- `RDCAP`: its encoding, the value it answers, and that no state changes (43_system.md R109). -/
def Obligations.RdcapResult : Prop :=
  Encodes 0xFFFFFFFF 0x1F000000 (fun _ => .rdcap) ∧
  ∀ s : State, ∃ t, exec .rdcap s = .next t ∧
    OnlyAnswers s t .ok (if s.hasAccel then 0x0000000144380840 else 0x0000000044380840)

/-- The pseudo-instructions expand as listed and do what they are for: `MOVB` copies, `CLRB` zeroes
whatever the register held, `INCB` adds 1 to each integer, `MOVM` copies (30_encoding.md R60). -/
def Obligations.PseudoInstructions : Prop :=
  (∀ (s : State) (rd rs : BReg), movb rd rs = [.modp2 rd rs 64] ∧
    ∃ t, execAll (movb rd rs) s = .next t ∧ WritesBatch s t rd (s.getBatch rs)) ∧
  (∀ (s : State) (rd : BReg), clrb rd = [.modp2 rd rd 0] ∧
    ∃ t, execAll (clrb rd) s = .next t ∧ WritesBatch s t rd zeroBatch) ∧
  (∀ (s : State) (rd : BReg), incb rd = [.adds rd rd 1] ∧
    ∃ t, execAll (incb rd) s = .next t ∧
      ∀ n, intOf (t.getBatch rd) n = (intOf (s.getBatch rd) n + 1) % 2 ^ 64) ∧
  (∀ (s : State) (rd rs : MReg), movm rd rs = [.trns rd rs, .trns rd rd] ∧
    ∃ t, execAll (movm rd rs) s = .next t ∧
      t.getMatrix rd = s.getMatrix rs ∧ SameMatricesBut rd s t ∧ SameBatches s t ∧ SameRest s t)
end

