-- ==== Sys2Proof/Laws/Operands.lean ====
section
/-! SUPPORT. What each operand operation does, bit by bit: later proofs cite these and unfold
nothing. -/

namespace Sys2Proof.Machine

@[simp] theorem getLsbD_wordOfBits (f : Fin 64 → Bool) (b : Fin 64) :
    (wordOfBits f).getLsbD b.val = f b := by
  simp [wordOfBits]

@[simp] theorem getLsbD_byteOfBits (f : Fin 8 → Bool) (t : Fin 8) :
    (byteOfBits f).getLsbD t.val = f t := by
  simp [byteOfBits]

@[simp] theorem getLsbD_byteOf (w : Word) (b t : Fin 8) :
    (byteOf w b).getLsbD t.val = w.getLsbD (8 * b.val + t.val) := by
  simp [byteOf]

theorem getLsbD_wordOfBytes (f : Fin 8 → Byte) (b t : Fin 8) :
    (wordOfBytes f).getLsbD (8 * b.val + t.val) = (f b).getLsbD t.val := by
  have h := getLsbD_wordOfBits (fun p => (f ⟨p.val / 8, by omega⟩).getLsbD (p.val % 8))
    ⟨8 * b.val + t.val, by omega⟩
  have hb : (⟨(8 * b.val + t.val) / 8, by omega⟩ : Fin 8) = b := Fin.ext (by simp; omega)
  have ht : (8 * b.val + t.val) % 8 = t.val := by omega
  simpa [wordOfBytes, hb, ht] using h

/-- Two words are equal if their 64 bits are. -/
theorem word_ext {x y : Word} (h : ∀ b : Fin 64, x.getLsbD b.val = y.getLsbD b.val) : x = y :=
  BitVec.eq_of_getLsbD_eq fun i hi => h ⟨i, hi⟩

/-- Two vector words are equal if their lanes are. -/
theorem plane_ext {x y : VectorWord} (h : ∀ l : Lane, x[l] = y[l]) : x = y :=
  Vector.ext fun i hi => h ⟨i, hi⟩

/-- Two batches are equal if all their bits are. -/
theorem batch_ext {X Y : Batch} (h : ∀ i l p, planeBit X i l p = planeBit Y i l p) : X = Y :=
  Vector.ext fun i hi => plane_ext fun l => word_ext fun p => h ⟨i, hi⟩ l p

/-- Two matrices are equal if all their bits are. -/
theorem matrix_ext {A B : BitMatrix}
    (h : ∀ r b : Fin 64, A[r].getLsbD b.val = B[r].getLsbD b.val) : A = B :=
  Vector.ext fun i hi => word_ext fun b => h ⟨i, hi⟩ b

@[simp] theorem getElem_lanewise (f : Word → Word → Word) (x y : VectorWord) (l : Nat)
    (h : l < 8) : (lanewise f x y)[l] = f x[l] y[l] := by
  simp [lanewise]

@[simp] theorem getElem_vxor (x y : VectorWord) (l : Nat) (h : l < 8) :
    (vxor x y)[l] = x[l] ^^^ y[l] := getElem_lanewise _ x y l h

@[simp] theorem getElem_vand (x y : VectorWord) (l : Nat) (h : l < 8) :
    (vand x y)[l] = x[l] &&& y[l] := getElem_lanewise _ x y l h

@[simp] theorem getElem_vor (x y : VectorWord) (l : Nat) (h : l < 8) :
    (vor x y)[l] = x[l] ||| y[l] := getElem_lanewise _ x y l h

theorem getElem_bcast (c : Bool) (l : Nat) (h : l < 8) :
    (bcast c)[l] = bif c then BitVec.allOnes 64 else 0 := by
  simp [bcast]

@[simp] theorem getLsbD_bcast (c : Bool) (l : Nat) (h : l < 8) (p : Fin 64) :
    (bcast c)[l].getLsbD p.val = c := by
  rw [getElem_bcast]
  cases c
  · exact BitVec.getLsbD_zero
  · exact (BitVec.getLsbD_allOnes).trans (by simp)

@[simp] theorem planeBit_zeroBatch (i : Index) (l : Lane) (p : Fin 64) :
    planeBit zeroBatch i l p = false := by
  have h := getLsbD_bcast false l.val l.isLt p
  simpa [planeBit, zeroBatch, zeroPlane] using h

/-- Reading a lane after writing one. -/
theorem getElem_writeLane (X : Batch) (i j : Index) (l m : Lane) (w : Word) :
    (writeLane X i l w)[j][m] = if j = i ∧ m = l then w else X[j][m] := by
  by_cases hi : j = i
  · subst hi
    by_cases hm : m = l
    · subst hm; simp [writeLane]
    · have : (l : Nat) ≠ m := fun e => hm (Fin.ext e.symm)
      simp [writeLane, this, hm]
  · have : (i : Nat) ≠ j := fun e => hi (Fin.ext e.symm)
    simp [writeLane, this, hi]

/-- Reading a lane after writing a lane column. -/
theorem getElem_putColumn (X : Batch) (l m : Lane) (A : BitMatrix) (i : Index) :
    (putColumn X l A)[i][m] = if m = l then A[i] else X[i][m] := by
  by_cases hm : m = l
  · subst hm; simp [putColumn]
  · have : (l : Nat) ≠ m := fun e => hm (Fin.ext e.symm)
    simp [putColumn, this, hm]

@[simp] theorem getElem_getColumn (X : Batch) (l : Lane) (i : Index) :
    (getColumn X l)[i] = X[i][l] := by
  simp [getColumn]

end Sys2Proof.Machine
end

