-- ==== Sys2Proof/Laws/State.lean ====
section
/-! SUPPORT. One lemma per field per update of the state, and reads after writes of the register
files: no proof unfolds a record update again. -/

namespace Sys2Proof.Machine

@[simp] theorem State.setBatch_batch (s : State) (r : BReg) (X : Batch) :
    (s.setBatch r X).batch = s.batch.set r X := rfl

@[simp] theorem State.setBatch_matrix (s : State) (r : BReg) (X : Batch) :
    (s.setBatch r X).matrix = s.matrix := rfl

@[simp] theorem State.setBatch_hasAccel (s : State) (r : BReg) (X : Batch) :
    (s.setBatch r X).hasAccel = s.hasAccel := rfl

@[simp] theorem State.setBatch_inputs (s : State) (r : BReg) (X : Batch) :
    (s.setBatch r X).inputs = s.inputs := rfl

@[simp] theorem State.setBatch_responses (s : State) (r : BReg) (X : Batch) :
    (s.setBatch r X).responses = s.responses := rfl

@[simp] theorem State.setBatch_resets (s : State) (r : BReg) (X : Batch) :
    (s.setBatch r X).resets = s.resets := rfl

@[simp] theorem State.setMatrix_batch (s : State) (r : MReg) (A : BitMatrix) :
    (s.setMatrix r A).batch = s.batch := rfl

@[simp] theorem State.setMatrix_matrix (s : State) (r : MReg) (A : BitMatrix) :
    (s.setMatrix r A).matrix = s.matrix.set r A := rfl

@[simp] theorem State.setMatrix_hasAccel (s : State) (r : MReg) (A : BitMatrix) :
    (s.setMatrix r A).hasAccel = s.hasAccel := rfl

@[simp] theorem State.setMatrix_inputs (s : State) (r : MReg) (A : BitMatrix) :
    (s.setMatrix r A).inputs = s.inputs := rfl

@[simp] theorem State.setMatrix_responses (s : State) (r : MReg) (A : BitMatrix) :
    (s.setMatrix r A).responses = s.responses := rfl

@[simp] theorem State.setMatrix_resets (s : State) (r : MReg) (A : BitMatrix) :
    (s.setMatrix r A).resets = s.resets := rfl

@[simp] theorem State.respond_batch (s : State) (st : Status) (v : Word) :
    (s.respond st v).batch = s.batch := rfl

@[simp] theorem State.respond_matrix (s : State) (st : Status) (v : Word) :
    (s.respond st v).matrix = s.matrix := rfl

@[simp] theorem State.respond_hasAccel (s : State) (st : Status) (v : Word) :
    (s.respond st v).hasAccel = s.hasAccel := rfl

@[simp] theorem State.respond_inputs (s : State) (st : Status) (v : Word) :
    (s.respond st v).inputs = s.inputs := rfl

@[simp] theorem State.respond_responses (s : State) (st : Status) (v : Word) :
    (s.respond st v).responses = ⟨st, v⟩ :: s.responses := rfl

@[simp] theorem State.respond_resets (s : State) (st : Status) (v : Word) :
    (s.respond st v).resets = s.resets := rfl

@[simp] theorem State.respondOk_batch (s : State) :
    (s.respondOk).batch = s.batch := rfl

@[simp] theorem State.respondOk_matrix (s : State) :
    (s.respondOk).matrix = s.matrix := rfl

@[simp] theorem State.respondOk_hasAccel (s : State) :
    (s.respondOk).hasAccel = s.hasAccel := rfl

@[simp] theorem State.respondOk_inputs (s : State) :
    (s.respondOk).inputs = s.inputs := rfl

@[simp] theorem State.respondOk_responses (s : State) :
    (s.respondOk).responses = ⟨.ok, 0⟩ :: s.responses := rfl

@[simp] theorem State.respondOk_resets (s : State) :
    (s.respondOk).resets = s.resets := rfl

@[simp] theorem State.respondError_batch (s : State) (st : Status) :
    (s.respondError st).batch = s.batch := rfl

@[simp] theorem State.respondError_matrix (s : State) (st : Status) :
    (s.respondError st).matrix = s.matrix := rfl

@[simp] theorem State.respondError_hasAccel (s : State) (st : Status) :
    (s.respondError st).hasAccel = s.hasAccel := rfl

@[simp] theorem State.respondError_inputs (s : State) (st : Status) :
    (s.respondError st).inputs = s.inputs := rfl

@[simp] theorem State.respondError_responses (s : State) (st : Status) :
    (s.respondError st).responses = ⟨st, 0⟩ :: s.responses := rfl

@[simp] theorem State.respondError_resets (s : State) (st : Status) :
    (s.respondError st).resets = s.resets := rfl

@[simp] theorem State.rejectWord_batch (s : State) (e : DecodeError) :
    (s.rejectWord e).batch = s.batch := rfl

@[simp] theorem State.rejectWord_matrix (s : State) (e : DecodeError) :
    (s.rejectWord e).matrix = s.matrix := rfl

@[simp] theorem State.rejectWord_hasAccel (s : State) (e : DecodeError) :
    (s.rejectWord e).hasAccel = s.hasAccel := rfl

@[simp] theorem State.rejectWord_inputs (s : State) (e : DecodeError) :
    (s.rejectWord e).inputs = s.inputs := rfl

@[simp] theorem State.rejectWord_responses (s : State) (e : DecodeError) :
    (s.rejectWord e).responses = ⟨.errIllegal, 0⟩ :: s.responses := rfl

@[simp] theorem State.rejectWord_resets (s : State) (e : DecodeError) :
    (s.rejectWord e).resets = s.resets := rfl

@[simp] theorem State.coldReset_batch (s : State) :
    (s.coldReset).batch = unspecifiedBatches (s.resets + 1) := rfl

@[simp] theorem State.coldReset_matrix (s : State) :
    (s.coldReset).matrix = unspecifiedMatrices (s.resets + 1) := rfl

@[simp] theorem State.coldReset_hasAccel (s : State) :
    (s.coldReset).hasAccel = s.hasAccel := rfl

@[simp] theorem State.coldReset_inputs (s : State) :
    (s.coldReset).inputs = s.inputs := rfl

@[simp] theorem State.coldReset_responses (s : State) :
    (s.coldReset).responses = s.responses := rfl

@[simp] theorem State.coldReset_resets (s : State) :
    (s.coldReset).resets = s.resets + 1 := rfl

@[simp] theorem State.present_batch (s : State) (q : Request) :
    (s.present q).batch = s.batch := rfl

@[simp] theorem State.present_matrix (s : State) (q : Request) :
    (s.present q).matrix = s.matrix := rfl

@[simp] theorem State.present_hasAccel (s : State) (q : Request) :
    (s.present q).hasAccel = s.hasAccel := rfl

@[simp] theorem State.present_inputs (s : State) (q : Request) :
    (s.present q).inputs = .request q :: s.inputs := rfl

@[simp] theorem State.present_responses (s : State) (q : Request) :
    (s.present q).responses = s.responses := rfl

@[simp] theorem State.present_resets (s : State) (q : Request) :
    (s.present q).resets = s.resets := rfl

@[simp] theorem State.idle_eq (s : State) : s.idle = s := rfl

@[simp] theorem State.reset_inputs : State.reset.inputs = [] := rfl

@[simp] theorem State.reset_responses : State.reset.responses = [] := rfl

@[simp] theorem State.getBatch_setBatch (s : State) (r : BReg) (X : Batch) :
    (s.setBatch r X).getBatch r = X := by
  simp [State.getBatch]

@[simp] theorem State.getBatch_setBatch_ne (s : State) {r q : BReg} (X : Batch) (h : q ≠ r) :
    (s.setBatch r X).getBatch q = s.getBatch q := by
  have : (r : Nat) ≠ q := fun e => h (Fin.ext e.symm)
  simp [State.getBatch, this]

@[simp] theorem State.getMatrix_setMatrix (s : State) (r : MReg) (A : BitMatrix) :
    (s.setMatrix r A).getMatrix r = A := by
  simp [State.getMatrix]

@[simp] theorem State.getMatrix_setMatrix_ne (s : State) {r q : MReg} (A : BitMatrix) (h : q ≠ r) :
    (s.setMatrix r A).getMatrix q = s.getMatrix q := by
  have : (r : Nat) ≠ q := fun e => h (Fin.ext e.symm)
  simp [State.getMatrix, this]

@[simp] theorem State.getMatrix_setBatch (s : State) (r : BReg) (X : Batch) (q : MReg) :
    (s.setBatch r X).getMatrix q = s.getMatrix q := rfl

@[simp] theorem State.getBatch_setMatrix (s : State) (r : MReg) (A : BitMatrix) (q : BReg) :
    (s.setMatrix r A).getBatch q = s.getBatch q := rfl

@[simp] theorem State.getBatch_respond (s : State) (st : Status) (v : Word) (r : BReg) :
    (s.respond st v).getBatch r = s.getBatch r := rfl

@[simp] theorem State.getMatrix_respond (s : State) (st : Status) (v : Word) (r : MReg) :
    (s.respond st v).getMatrix r = s.getMatrix r := rfl

@[simp] theorem State.getBatch_respondOk (s : State) (r : BReg) :
    (s.respondOk).getBatch r = s.getBatch r := rfl

@[simp] theorem State.getMatrix_respondOk (s : State) (r : MReg) :
    (s.respondOk).getMatrix r = s.getMatrix r := rfl

@[simp] theorem State.getBatch_respondError (s : State) (st : Status) (r : BReg) :
    (s.respondError st).getBatch r = s.getBatch r := rfl

@[simp] theorem State.getMatrix_respondError (s : State) (st : Status) (r : MReg) :
    (s.respondError st).getMatrix r = s.getMatrix r := rfl

@[simp] theorem State.getBatch_rejectWord (s : State) (e : DecodeError) (r : BReg) :
    (s.rejectWord e).getBatch r = s.getBatch r := rfl

@[simp] theorem State.getMatrix_rejectWord (s : State) (e : DecodeError) (r : MReg) :
    (s.rejectWord e).getMatrix r = s.getMatrix r := rfl

@[simp] theorem State.getBatch_present (s : State) (q : Request) (r : BReg) :
    (s.present q).getBatch r = s.getBatch r := rfl

@[simp] theorem State.getMatrix_present (s : State) (q : Request) (r : MReg) :
    (s.present q).getMatrix r = s.getMatrix r := rfl

end Sys2Proof.Machine
end

