-- ==== Sys2Proof/Laws/Arithmetic.lean ====
section
/-! SUPPORT. The arithmetic engine bit by bit: each bit position of each lane is a 64-step full
adder of its own. -/

namespace Sys2Proof.Machine

/-- The carry into step `n` at bit position `p` of lane `l` (40_arith.md R64). -/
def carryBit (a b : Batch) (l : Lane) (p : Fin 64) : (n : Nat) → n ≤ 64 → Bool
  | 0, _ => false
  | n + 1, h =>
    let x := planeBit a ⟨63 - n, by omega⟩ l p
    let y := planeBit b ⟨63 - n, by omega⟩ l p
    x && y || carryBit a b l p n (by omega) && (x ^^ y)

/-- The sum half of the carry-propagate step at one bit. -/
theorem fullAdder_sum_bit (x y z : VectorWord) (l : Lane) (p : Nat) :
    (fullAdder x y z).1[l].getLsbD p =
      (x[l].getLsbD p ^^ y[l].getLsbD p ^^ z[l].getLsbD p) := by
  simp [fullAdder]

/-- The carry half of the carry-propagate step at one bit. -/
theorem fullAdder_carry_bit (x y z : VectorWord) (l : Lane) (p : Nat) :
    (fullAdder x y z).2[l].getLsbD p =
      (x[l].getLsbD p && y[l].getLsbD p ||
        z[l].getLsbD p && (x[l].getLsbD p ^^ y[l].getLsbD p)) := by
  simp [fullAdder]

/-- The carry of the ripple chain after `n` steps. -/
theorem rippleSteps_carry (a b : Batch) (l : Lane) (p : Fin 64) :
    ∀ (n : Nat) (h : n ≤ 64), (rippleSteps a b n h).2[l].getLsbD p.val = carryBit a b l p n h
  | 0, _ => getLsbD_bcast false l.val l.isLt p
  | n + 1, h => by
    have ih := rippleSteps_carry a b l p n (by omega)
    rw [rippleSteps, fullAdder_carry_bit, ih]
    rfl

/-- A sum plane is written by its own step and by no later one. -/
theorem rippleSteps_plane (a b : Batch) (i : Index) :
    ∀ (n : Nat) (h : n ≤ 64) (hi : 63 - i.val < n), (rippleSteps a b n h).1[i] =
      (fullAdder a[i] b[i] (rippleSteps a b (63 - i.val) (by omega)).2).1
  | n + 1, h, hi => by
    rw [rippleSteps]
    by_cases e : n = 63 - i.val
    · subst e
      have e2 : 63 - (63 - i.val) = i.val := by omega
      simp [e2]
    · have ih := rippleSteps_plane a b i n (by omega) (by omega)
      have ne : 63 - n ≠ i.val := by omega
      simpa [Vector.getElem_set, ne] using ih

/-- `RIPPLE` at one bit: the sum of the two bits and the carry that reaches them (R63, R64). -/
theorem planeBit_ripple (a b : Batch) (i : Index) (l : Lane) (p : Fin 64) :
    planeBit (ripple a b) i l p =
      (planeBit a i l p ^^ planeBit b i l p ^^ carryBit a b l p (63 - i.val) (by omega)) := by
  rw [planeBit, ripple, rippleSteps_plane a b i 64 (by omega) (by omega), fullAdder_sum_bit,
    rippleSteps_carry]
  rfl

/-- `SPLANES` at one bit (40_arith.md R67). -/
@[simp] theorem planeBit_scalarPlanes (x : Word) (i : Index) (l : Lane) (p : Fin 64) :
    planeBit (scalarPlanes x) i l p = x.getLsbD i.rev.val := by
  have h := getLsbD_bcast (x.getLsbD i.rev.val) l.val l.isLt p
  simpa [planeBit, scalarPlanes] using h

/-- `TRUNC` plane by plane (40_arith.md R70). -/
theorem getElem_truncate (a : Batch) (k : Nat) (i : Index) :
    (truncate a k)[i] = if i.val < 64 - k then zeroPlane else a[i] := by
  simp [truncate]

/-- `TRUNC` at one bit (40_arith.md R70). -/
theorem planeBit_truncate (a : Batch) (k : Nat) (i : Index) (l : Lane) (p : Fin 64) :
    planeBit (truncate a k) i l p = (decide (64 - k ≤ i.val) && planeBit a i l p) := by
  have z : zeroPlane[l].getLsbD p.val = false := getLsbD_bcast false l.val l.isLt p
  rw [planeBit, getElem_truncate]
  by_cases h : i.val < 64 - k
  · rw [if_pos h, z, decide_eq_false (by omega), Bool.false_and]
  · rw [if_neg h, decide_eq_true (by omega), Bool.true_and]
    rfl

/-- What `MODP2` does with a legal exponent (40_arith.md R71). -/
theorem execModp2_of_le (rd rs1 : BReg) {k : Nat} (h : k ≤ 64) (s : State) :
    execModp2 rd rs1 k s =
      .next (s.setBatch rd (truncate (s.getBatch rs1) k)).respondOk := by
  have : moduloStatus k = .ok := if_neg (by simpa using h)
  simp [execModp2, this]

/-- What `MODP2` does with an exponent out of range (40_arith.md R71). -/
theorem execModp2_of_gt (rd rs1 : BReg) {k : Nat} (h : 64 < k) (s : State) :
    execModp2 rd rs1 k s = .next (s.respondError .errParam) := by
  have : moduloStatus k = .errParam := if_pos h
  simp [execModp2, this]

end Sys2Proof.Machine
end

