-- ==== Sys2Proof/Laws/Decode.lean ====
section
/-! SUPPORT. Fields and command words determine each other, and a mask test is a test of fields. -/

namespace Sys2Proof

/-- Reading the fields of a built word gives them back (30_encoding.md R48). -/
@[simp] theorem Fields.ofCmd_toCmd (f : Fields) : Fields.ofCmd f.toCmd = f := by
  obtain ⟨op, rd, rs1, rs2, idx, lane, z, k⟩ := f
  simp only [Fields.ofCmd, Fields.toCmd, Fields.mk.injEq]
  refine ⟨?_, ?_, ?_, ?_, ?_, ?_, ?_, ?_⟩ <;>
  · apply BitVec.eq_of_getLsbD_eq
    intro i hi
    interval_cases i <;> simp [BitVec.getElem_setWidth]

/-- Building a word from its own fields gives it back: the fields cover all 32 bits. -/
@[simp] theorem Fields.toCmd_ofCmd (w : BitVec 32) : (Fields.ofCmd w).toCmd = w := by
  apply BitVec.eq_of_getLsbD_eq
  intro i hi
  interval_cases i <;> simp [Fields.toCmd, Fields.ofCmd, BitVec.getElem_setWidth]

theorem Fields.toCmd_injective {f g : Fields} (h : f.toCmd = g.toCmd) : f = g := by
  rw [← Fields.ofCmd_toCmd f, h, Fields.ofCmd_toCmd]

/-- Field by field conjunction. -/
def Fields.meet (f g : Fields) : Fields where
  op := f.op &&& g.op
  rd := f.rd &&& g.rd
  rs1 := f.rs1 &&& g.rs1
  rs2 := f.rs2 &&& g.rs2
  idx := f.idx &&& g.idx
  lane := f.lane &&& g.lane
  z := f.z &&& g.z
  k := f.k &&& g.k

/-- Conjunction of words is conjunction of fields. -/
theorem Fields.toCmd_and (f g : Fields) : f.toCmd &&& g.toCmd = (f.meet g).toCmd := by
  apply BitVec.eq_of_getLsbD_eq
  intro i hi
  interval_cases i <;> simp [Fields.toCmd, Fields.meet, BitVec.getElem_setWidth]

/-- Which fields a format's mask keeps. -/
def Format.maskFields (fmt : Format) : Fields := Fields.ofCmd fmt.mask

theorem Opcode.matchWord_eq (o : Opcode) : o.matchWord = (Fields.bare o).toCmd := by
  cases o <;> decide

/-- The mask test of 30_encoding.md R52 says that the opcode is this one and the "Must be zero" fields
are zero. -/
theorem mask_match_iff (o : Opcode) (f : Fields) :
    f.toCmd &&& o.format.mask = o.matchWord ↔ f.op = o.code ∧ o.format.mustBeZero f := by
  have key : f.toCmd &&& o.format.mask = o.matchWord ↔
      f.meet o.format.maskFields = Fields.bare o := by
    have hm : o.format.mask = o.format.maskFields.toCmd := (Fields.toCmd_ofCmd _).symm
    rw [hm, Fields.toCmd_and, o.matchWord_eq]
    exact ⟨Fields.toCmd_injective, congrArg Fields.toCmd⟩
  rw [key]
  obtain ⟨op, rd, rs1, rs2, idx, lane, z, k⟩ := f
  have ones : ∀ (w : Nat) (x : BitVec w), x &&& BitVec.allOnes w = x := fun w x => by simp
  have o8 := ones 8
  have o6 := ones 6
  have o3 := ones 3
  have o2 := ones 2
  have o1 := ones 1
  simp only [BitVec.reduceAllOnes] at o8 o6 o3 o2 o1
  cases o <;>
    simp [Fields.meet, Format.maskFields, Opcode.format, Format.mask, Fields.ofCmd, Fields.bare,
      Format.mustBeZero, o8, o6, o3, o2, o1]

@[simp] theorem Opcode.ofCode_code (o : Opcode) : Opcode.ofCode o.code = some o := by
  cases o <;> rfl

/-- The table has an opcode's number on no other row. -/
theorem Opcode.code_of_ofCode {v : BitVec 8} {o : Opcode} (h : Opcode.ofCode v = some o) :
    v = o.code := by
  have := List.find?_some h
  exact (eq_of_beq this).symm

/-- When a request is a legal word (30_encoding.md R52), and of which command. -/
theorem decode_eq_ok {q : Request} {i : Instr} :
    decode q = .ok i ↔ ∃ o : Opcode, q.cmd &&& o.format.mask = o.matchWord ∧
      i = o.build (Fields.ofCmd q.cmd) q.data := by
  unfold decode
  constructor
  · intro h
    split at h
    · cases h
    · next o ho =>
      split at h
      · next hm => exact ⟨o, hm, by cases h; rfl⟩
      · cases h
  · rintro ⟨o, hm, rfl⟩
    have hop : (Fields.ofCmd q.cmd).op = o.code := by
      have := (mask_match_iff o (Fields.ofCmd q.cmd)).1 (by rwa [Fields.toCmd_ofCmd])
      exact this.1
    rw [hop, Opcode.ofCode_code]
    simp [hm]

/-- The mask test on a word, read from its fields. -/
theorem cmd_match_iff (o : Opcode) (w : BitVec 32) : w &&& o.format.mask = o.matchWord ↔
    (Fields.ofCmd w).op = o.code ∧ o.format.mustBeZero (Fields.ofCmd w) := by
  have := mask_match_iff o (Fields.ofCmd w)
  rwa [Fields.toCmd_ofCmd] at this

theorem Opcode.code_injective {o o' : Opcode} (h : o.code = o'.code) : o = o' := by
  have := Opcode.ofCode_code o
  rw [h, Opcode.ofCode_code] at this
  cases this
  rfl

@[simp] theorem Opcode.opcode_build (o : Opcode) (f : Fields) (d : Word) :
    (o.build f d).opcode = o := by
  cases o <;> rfl

/-- The fields of the command a legal word spells are the word's. -/
theorem Opcode.fields_build (o : Opcode) (f : Fields) (d : Word) (ho : f.op = o.code)
    (hz : o.format.mustBeZero f) : (o.build f d).fields = f := by
  obtain ⟨op, rd, rs1, rs2, idx, lane, z, k⟩ := f
  cases o <;>
    simp_all [Opcode.build, Instr.fields, Fields.bare, regField, Format.mustBeZero, Opcode.format]

end Sys2Proof
end

