-- ==== Sys2Proof/Laws/Integers.lean ====
section
/-! SUPPORT. The integers of a batch as 64-bit words (10_state.md R16, R17), and the carries of the
ripple chain as the carries of their addition. -/

namespace Sys2Proof.Machine

/-- Integer number `n` of a batch as a word. -/
def intWord (X : Batch) (n : Fin 512) : Word := wordOfBits (intBit X n)

theorem getLsbD_intWord (X : Batch) (n : Fin 512) (b : Fin 64) :
    (intWord X n).getLsbD b.val = intBit X n b :=
  getLsbD_wordOfBits _ b

/-- The number whose bits are given is the sum of its bits' weights. -/
theorem sum_bits (w : Nat) (f : Fin w → Bool) :
    (∑ b : Fin w, 2 ^ b.val * (f b).toNat) = (BitVec.ofFnLE f).toNat := by
  induction w with
  | zero => simp
  | succ w ih =>
    have h1 : ∑ b : Fin (w + 1), 2 ^ b.val * (f b).toNat =
        (f 0).toNat + 2 * ∑ b : Fin w, 2 ^ b.val * (f b.succ).toNat := by
      rw [Fin.sum_univ_succ, Finset.mul_sum]
      simp only [Fin.val_zero, pow_zero, one_mul, Fin.val_succ]
      exact congrArg _ (Finset.sum_congr rfl fun i _ => by ring)
    have h2 : BitVec.ofFnLE f = (BitVec.ofFnLE fun i => f i.succ).concat (f 0) := by
      apply BitVec.eq_of_getLsbD_eq
      intro i hi
      rw [BitVec.getLsbD_concat, BitVec.getLsbD_ofFnLE]
      cases i with
      | zero => simp
      | succ i => simp [BitVec.getLsbD_ofFnLE]
    rw [h1, ih, h2, BitVec.toNat_concat]
    omega

/-- `int(X, n)` is the word's value. -/
theorem intOf_eq_toNat (X : Batch) (n : Fin 512) : intOf X n = (intWord X n).toNat :=
  sum_bits 64 _

/-- Two batches with the same 512 integers are the same. -/
theorem batch_ext_intWord {X Y : Batch} (h : ∀ n, intWord X n = intWord Y n) : X = Y := by
  apply batch_ext
  intro i l p
  have := congrArg (fun w => w.getLsbD i.rev.val) (h ⟨64 * l.val + p.val, by omega⟩)
  simp only [getLsbD_intWord, intBit, Fin.rev_rev] at this
  have e1 : (64 * l.val + p.val) / 64 = l.val := by omega
  have e2 : (64 * l.val + p.val) % 64 = p.val := by omega
  simpa [e1, e2] using this

/-- The carry into step `t` of the chain is the carry into bit `t` of the words' sum
(40_arith.md R64). -/
theorem carryBit_eq_carry (a b : Batch) (n : Fin 512) : ∀ (t : Nat) (h : t ≤ 64),
    carryBit a b ⟨n.val / 64, by omega⟩ ⟨n.val % 64, by omega⟩ t h =
      BitVec.carry t (intWord a n) (intWord b n) false
  | 0, _ => by simp [carryBit, BitVec.carry_zero]
  | t + 1, h => by
    have ih := carryBit_eq_carry a b n t (by omega)
    have bit : ∀ X : Batch, (intWord X n).getLsbD t =
        planeBit X ⟨63 - t, by omega⟩ ⟨n.val / 64, by omega⟩ ⟨n.val % 64, by omega⟩ := by
      intro X
      have e : Fin.rev (⟨t, by omega⟩ : Fin 64) = ⟨63 - t, by omega⟩ :=
        Fin.ext (by simp [Fin.val_rev])
      have := getLsbD_intWord X n ⟨t, by omega⟩
      simpa only [intBit, e] using this
    rw [BitVec.carry_succ, carryBit, ih, ← bit a, ← bit b]
    cases (intWord a n).getLsbD t <;> cases (intWord b n).getLsbD t <;>
      cases BitVec.carry t (intWord a n) (intWord b n) false <;> rfl

end Sys2Proof.Machine
end

