-- ==== Sys2Proof/Laws/PerInstr.lean ====
section
/-! SUPPORT. Per instruction: the encoder's word passes the instruction's own mask test
(30_encoding.md R52), that is, no bit outside its format is set. -/

namespace Sys2Proof.Laws.LegalWord

/-- The encoded word of a command matches the `match` and `mask` of its row. -/
def Statement (i : Instr) : Prop :=
  (encode i).cmd &&& i.opcode.format.mask = i.opcode.matchWord

theorem add (rd rs1 rs2 : BReg) : Statement (.add rd rs1 rs2) :=
  (mask_match_iff .add _).2 ⟨rfl, rfl, rfl, rfl, rfl⟩

theorem adds (rd rs1 : BReg) (scalar : Word) : Statement (.adds rd rs1 scalar) :=
  (mask_match_iff .adds _).2 ⟨rfl, rfl, rfl, rfl, rfl, rfl⟩

theorem modp2 (rd rs1 : BReg) (k : Nat) : Statement (.modp2 rd rs1 k) :=
  (mask_match_iff .modp2 _).2 ⟨rfl, rfl, rfl, rfl, rfl⟩

theorem reduce (rd rs1 : BReg) (index : Word) : Statement (.reduce rd rs1 index) :=
  (mask_match_iff .reduce _).2 ⟨rfl, rfl, rfl, rfl, rfl, rfl⟩

theorem trns (rd rs1 : MReg) : Statement (.trns rd rs1) :=
  (mask_match_iff .trns _).2 ⟨rfl, rfl, rfl, rfl, rfl, rfl⟩

theorem trna (rd rs1 : MReg) : Statement (.trna rd rs1) :=
  (mask_match_iff .trna _).2 ⟨rfl, rfl, rfl, rfl, rfl, rfl⟩

theorem ldm (rd : MReg) (idx : Index) (value : Word) : Statement (.ldm rd idx value) :=
  (mask_match_iff .ldm _).2 ⟨rfl, rfl, rfl, rfl, rfl, rfl⟩

theorem stm (rs1 : MReg) (idx : Index) : Statement (.stm rs1 idx) :=
  (mask_match_iff .stm _).2 ⟨rfl, rfl, rfl, rfl, rfl, rfl⟩

theorem ldp (rd : BReg) (idx : Index) (lane : Lane) (value : Word) :
    Statement (.ldp rd idx lane value) :=
  (mask_match_iff .ldp _).2 ⟨rfl, rfl, rfl, rfl, rfl⟩

theorem stp (rs1 : BReg) (idx : Index) (lane : Lane) : Statement (.stp rs1 idx lane) :=
  (mask_match_iff .stp _).2 ⟨rfl, rfl, rfl, rfl, rfl⟩

theorem putl (rd : BReg) (lane : Lane) (rs1 : MReg) : Statement (.putl rd lane rs1) :=
  (mask_match_iff .putl _).2 ⟨rfl, rfl, rfl, rfl, rfl⟩

theorem getl (rd : MReg) (rs1 : BReg) (lane : Lane) : Statement (.getl rd rs1 lane) :=
  (mask_match_iff .getl _).2 ⟨rfl, rfl, rfl, rfl, rfl⟩

theorem rdcap : Statement .rdcap :=
  (mask_match_iff .rdcap _).2 ⟨rfl, rfl, rfl, rfl, rfl, rfl, rfl, rfl⟩

end Sys2Proof.Laws.LegalWord
end

