-- ==== Sys2Proof/Laws/Transpose.lean ====
section
/-! SUPPORT. The transpose engine bit by bit: the function `T`, one exchange of the scalar
algorithm, and each stage of the accelerated datapath. -/

namespace Sys2Proof.Machine

/-- Bit `b` of row `r` of `T(A)` (41_transpose.md R82). -/
theorem transpose_bit (A : BitMatrix) (r b : Fin 64) :
    (transpose A)[r].getLsbD b.val = A[b.rev].getLsbD r.rev.val := by
  have h := getLsbD_wordOfBits (fun b => A[b.rev].getLsbD r.rev.val) b
  simpa [transpose] using h

/-- Bit `t` of byte `l` of word `g` of gathered group `v` (41_transpose.md R89). -/
theorem byteGather_bit (A : BitMatrix) (v g l t : Fin 8) :
    (byteGather A)[v][g].getLsbD (8 * l.val + t.val) =
      A[8 * v.val + l.val].getLsbD (8 * (7 - g.val) + t.val) := by
  have h1 : (gatherPerm ⟨8 * g.val + l.val, by omega⟩).val = 8 * l.val + (7 - g.val) := by
    simp only [gatherPerm]
    omega
  have h2 : (byteGather A)[v][g] = wordOfBytes fun l =>
      groupByte A v (gatherPerm ⟨8 * g.val + l.val, by omega⟩) := by
    simp [byteGather]
  have h3 : (8 * l.val + (7 - g.val)) / 8 = l.val := by omega
  have h4 : (8 * l.val + (7 - g.val)) % 8 = 7 - g.val := by omega
  rw [h2, getLsbD_wordOfBytes, groupByte, getLsbD_byteOf]
  simp only [h1, h3, h4]

/-- `BT8` bit by bit (41_transpose.md R90). -/
theorem blockTranspose_bit (q : Word) (j i : Fin 8) :
    (blockTranspose q).getLsbD (8 * j.val + i.val) = q.getLsbD (8 * i.rev.val + j.val) := by
  rw [blockTranspose, getLsbD_wordOfBytes, getLsbD_byteOfBits, getLsbD_byteOf]

/-- Stage 3 bit by bit (41_transpose.md R91). -/
theorem reassemble_bit (R : Vector VectorWord 8) (g i b t : Fin 8) :
    (reassemble R)[8 * g.val + i.val].getLsbD (8 * b.val + t.val) =
      R[b.rev][g].getLsbD (8 * i.rev.val + t.val) := by
  have h1 : (8 * g.val + i.val) / 8 = g.val := by omega
  have h2 : (8 * g.val + i.val) % 8 = i.val := by omega
  have h3 : (reassemble R)[8 * g.val + i.val] = wordOfBytes fun b =>
      byteOf R[b.rev][(8 * g.val + i.val) / 8] (Fin.rev ⟨(8 * g.val + i.val) % 8, by omega⟩) := by
    simp [reassemble]
  rw [h3, getLsbD_wordOfBytes, getLsbD_byteOf]
  simp only [h1, h2]
  rfl

/-- What `TRNA` does with the accelerated datapath (41_transpose.md R94). -/
theorem execTrna_of_accel (rd rs1 : MReg) {s : State} (h : s.hasAccel = true) :
    execTrna rd rs1 s = .next (s.setMatrix rd (transpose (s.getMatrix rs1))).respondOk := by
  simp [execTrna, accelStatus, h]

/-- What `TRNA` does without the accelerated datapath (30_encoding.md R55). -/
theorem execTrna_of_not_accel (rd rs1 : MReg) {s : State} (h : s.hasAccel = false) :
    execTrna rd rs1 s = .next (s.respondError .errIllegal) := by
  simp [execTrna, accelStatus, h]

/-- One exchange word by word (41_transpose.md R85). -/
theorem getElem_exchange (j : Index) (m : Word) (X : BitMatrix) (k w : Index)
    (hne : partner j k ≠ k) :
    (exchange j m X k)[w] =
      if w = partner j k then
        X[partner j k] ^^^ (((X[k] ^^^ (X[partner j k] >>> j.val)) &&& m) <<< j.val)
      else if w = k then X[k] ^^^ ((X[k] ^^^ (X[partner j k] >>> j.val)) &&& m)
      else X[w] := by
  have h1 : (partner j k : Nat) ≠ k := fun e => hne (Fin.ext e)
  by_cases hw : w = partner j k
  · subst hw
    simp [exchange, h1.symm]
  · have h2 : (partner j k : Nat) ≠ w := fun e => hw (Fin.ext e.symm)
    by_cases hk : w = k
    · subst hk
      simp [exchange, Vector.getElem_set, hw, h1]
    · have h3 : (k : Nat) ≠ w := fun e => hk (Fin.ext e.symm)
      simp [exchange, hw, hk, h2, h3]

end Sys2Proof.Machine
end

