-- ==== Sys2Proof/Laws/Step.lean ====
section
/-! SUPPORT. Everything a command and a step can do, said once. -/

namespace Sys2Proof.Machine

/-- Writing a batch register and answering `OK`. -/
theorem writesBatch_setBatch (s : State) (rd : BReg) (X : Batch) :
    WritesBatch s (s.setBatch rd X).respondOk rd X :=
  ⟨by simp, rfl, fun _ h => by simp [h], fun _ => rfl, rfl, rfl, rfl⟩

/-- Writing a matrix register and answering `OK`. -/
theorem writesMatrix_setMatrix (s : State) (rd : MReg) (A : BitMatrix) :
    WritesMatrix s (s.setMatrix rd A).respondOk rd A :=
  ⟨by simp, rfl, fun _ h => by simp [h], fun _ => rfl, rfl, rfl, rfl⟩

/-- Answering and nothing else. -/
theorem onlyAnswers_respond (s : State) (st : Status) (v : Word) :
    OnlyAnswers s (s.respond st v) st v :=
  ⟨rfl, fun _ => rfl, fun _ => rfl, rfl, rfl, rfl⟩

/-- What a command can do: it writes one batch register, or one matrix register, or only answers,
and an error answer carries no word. -/
def Effect (s t : State) : Prop :=
  (∃ rd X, WritesBatch s t rd X) ∨ (∃ rd A, WritesMatrix s t rd A) ∨
    ∃ st v, OnlyAnswers s t st v ∧ (st ≠ .ok → v = 0)

/-- Every command, in every state, answers a next state with one of the three effects. -/
theorem exec_effect (i : Instr) (s : State) : ∃ t, exec i s = .next t ∧ Effect s t := by
  have wb : ∀ rd X, Effect s (s.setBatch rd X).respondOk := fun rd X =>
    .inl ⟨rd, X, writesBatch_setBatch s rd X⟩
  have wm : ∀ rd A, Effect s (s.setMatrix rd A).respondOk := fun rd A =>
    .inr (.inl ⟨rd, A, writesMatrix_setMatrix s rd A⟩)
  have ok : ∀ v, Effect s (s.respond .ok v) := fun v =>
    .inr (.inr ⟨.ok, v, onlyAnswers_respond s .ok v, fun h => absurd rfl h⟩)
  have er : ∀ st, Effect s (s.respondError st) := fun st =>
    .inr (.inr ⟨st, 0, onlyAnswers_respond s st 0, fun _ => rfl⟩)
  cases i with
  | add rd rs1 rs2 => exact ⟨_, rfl, wb _ _⟩
  | adds rd rs1 x => exact ⟨_, rfl, wb _ _⟩
  | modp2 rd rs1 k =>
    by_cases h : k ≤ 64
    · exact ⟨_, execModp2_of_le rd rs1 h s, wb _ _⟩
    · exact ⟨_, execModp2_of_gt rd rs1 (by omega) s, er _⟩
  | reduce rd rs1 x => exact ⟨_, rfl, wb _ _⟩
  | trns rd rs1 => exact ⟨_, rfl, wm _ _⟩
  | trna rd rs1 =>
    cases h : s.hasAccel
    · exact ⟨_, execTrna_of_not_accel rd rs1 h, er _⟩
    · exact ⟨_, execTrna_of_accel rd rs1 h, wm _ _⟩
  | ldm rd i v => exact ⟨_, rfl, wm _ _⟩
  | stm rs1 i => exact ⟨_, rfl, ok _⟩
  | ldp rd i l v => exact ⟨_, rfl, wb _ _⟩
  | stp rs1 i l => exact ⟨_, rfl, ok _⟩
  | putl rd l rs1 => exact ⟨_, rfl, wb _ _⟩
  | getl rd rs1 l => exact ⟨_, rfl, wm _ _⟩
  | rdcap => exact ⟨_, rfl, ok _⟩

/-- With nothing to do, a step is idle. -/
theorem step_of_idle {s : State} (h : s.inputs = []) : step s = .next s := by
  simp [step, State.nextInput, h]

/-- A step on a reset event. -/
theorem step_of_reset {s : State} {rest : List Input} (h : s.inputs = .reset :: rest) :
    step s = .next { s with inputs := rest }.coldReset := by
  simp [step, State.nextInput, h]

/-- A step on a request that is a legal word. -/
theorem step_of_ok {s : State} {q : Request} {rest : List Input} {i : Instr}
    (h : s.inputs = .request q :: rest) (hd : decode q = .ok i) :
    step s = exec i { s with inputs := rest } := by
  simp [step, State.nextInput, h, hd]

/-- A step on a request that is no legal word. -/
theorem step_of_error {s : State} {q : Request} {rest : List Input} {e : DecodeError}
    (h : s.inputs = .request q :: rest) (hd : decode q = .error e) :
    step s = .next ({ s with inputs := rest }.rejectWord e) := by
  simp [step, State.nextInput, h, hd]

/-- What a step can do: stay idle, reset, or take the oldest request and have one command's
effect. -/
theorem step_effect {s t : State} (h : step s = .next t) :
    (s.inputs = [] ∧ t = s) ∨
    (∃ rest, s.inputs = .reset :: rest ∧ t = { s with inputs := rest }.coldReset) ∨
    (∃ q rest, s.inputs = .request q :: rest ∧ Effect { s with inputs := rest } t) := by
  cases hi : s.inputs with
  | nil =>
    rw [step_of_idle hi] at h
    cases h
    exact .inl ⟨rfl, rfl⟩
  | cons a rest =>
    cases a with
    | reset =>
      rw [step_of_reset hi] at h
      cases h
      exact .inr (.inl ⟨rest, rfl, rfl⟩)
    | request q =>
      refine .inr (.inr ⟨q, rest, rfl, ?_⟩)
      cases hd : decode q with
      | error e =>
        rw [step_of_error hi hd] at h
        cases h
        exact .inr (.inr ⟨_, 0, onlyAnswers_respond _ .errIllegal 0, fun _ => rfl⟩)
      | ok i =>
        rw [step_of_ok hi hd] at h
        obtain ⟨u, hu, he⟩ := exec_effect i { s with inputs := rest }
        rw [h] at hu
        cases hu
        exact he

/-- Whatever a command does, it answers once, leaves the rest alone, and as an error changes
nothing. -/
theorem effect_answers {s t : State} (h : Effect s t) : ∃ st v, Answers s t st v ∧ SameRest s t ∧
    (st ≠ .ok → v = 0 ∧ SameBatches s t ∧ SameMatrices s t) := by
  rcases h with ⟨_, _, _, ha, _, _, hr⟩ | ⟨_, _, _, ha, _, _, hr⟩ | ⟨_, _, ⟨ha, hb, hm, hr⟩, hz⟩
  · exact ⟨_, _, ha, hr, fun h => absurd rfl h⟩
  · exact ⟨_, _, ha, hr, fun h => absurd rfl h⟩
  · exact ⟨_, _, ha, hr, fun h => ⟨hz h, hb, hm⟩⟩

/-- No command looks at what the host will do later. -/
theorem exec_with_inputs (i : Instr) {s t : State} (l : List Input) (h : exec i s = .next t) :
    exec i { s with inputs := l } = .next { t with inputs := l } := by
  cases i with
  | modp2 rd rs1 k =>
    simp only [exec] at h ⊢
    by_cases hk : k ≤ 64
    · rw [execModp2_of_le _ _ hk] at h ⊢
      cases h
      rfl
    · rw [execModp2_of_gt _ _ (by omega)] at h ⊢
      cases h
      rfl
  | trna rd rs1 =>
    simp only [exec] at h ⊢
    by_cases ha : s.hasAccel = true
    · rw [execTrna_of_accel _ _ ha] at h
      rw [execTrna_of_accel _ _ (by exact ha)]
      cases h
      rfl
    · rw [execTrna_of_not_accel _ _ (by simpa using ha)] at h
      rw [execTrna_of_not_accel _ _ (by simpa using ha)]
      cases h
      rfl
  | _ =>
    cases h
    rfl

/-- One step of a run. -/
theorem core_run_succ (k : Nat) {s t : State} (h : step s = .next t) :
    core.run (k + 1) s = core.run k t := by
  have h' : core.step s = .next t := h
  simp [Host.Core.run, h']

end Sys2Proof.Machine
end

