-- ==== Sys2Proof/Tests/Slice0.lean ====
section
/-! SUPPORT. Tests: expected values are those of 95_test_vectors.md (section V or P named in each
docstring), 30_encoding.md R59, or worked out by hand from a rule; and, for each obligation with
hypotheses, a witness that its hypotheses can hold together. -/

namespace Sys2Proof.Tests

open Sys2Proof Sys2Proof.Machine

/-! ### Helpers -/

/-- A core with every register zero. -/
def blank (accel : Bool) (inputs : List Input) : State where
  batch := Vector.replicate 4 zeroBatch
  matrix := Vector.replicate 4 zeroMatrix
  hasAccel := accel
  inputs := inputs
  responses := []
  resets := 0

/-- One request, then a reset. -/
def ask (cmd : BitVec 32) (data : Word) : List Input := [.request ⟨cmd, data⟩, .reset]

/-- A core about to be asked one thing. -/
def asked (accel : Bool) (cmd : BitVec 32) : State := blank accel (ask cmd 0)

/-- What a state reads off an outcome. -/
def read {α : Type} (o : Host.Outcome State Fault Refusal) (f : State → α) : Option α :=
  match o with
  | .next t => some (f t)
  | .fault _ => none
  | .refused _ => none

/-- One lane of a batch register after an outcome. -/
def lane (o : Host.Outcome State Fault Refusal) (r : BReg) (i : Index) (l : Lane) : Option Word :=
  read o fun t => (t.getBatch r)[i][l]

/-- One word of a matrix register after an outcome. -/
def word (o : Host.Outcome State Fault Refusal) (r : MReg) (i : Index) : Option Word :=
  read o fun t => (t.getMatrix r)[i]

/-- The answers after an outcome: status code and `rdata`, newest first. -/
def answers (o : Host.Outcome State Fault Refusal) : Option (List (BitVec 2 × Word)) :=
  read o fun t => t.responses.map fun r => (r.status.code, r.rdata)

/-- `B1` and `B2` of scenario 1: plane 63 all ones, every other plane zero. -/
def planeOne : Batch := zeroBatch.set 63 onesPlane

/-- A core whose `B0` is all ones and whose `B1`, `B2` are `planeOne`. -/
def sample : State :=
  ((blank false []).setBatch 0 (Vector.replicate 64 onesPlane)).setBatch 1 planeOne
    |>.setBatch 2 planeOne

/-- The matrix of scenario 4 (V4). -/
def scenarioFour : BitMatrix :=
  (zeroMatrix.set 0 0xFFFFFFFFFFFFFFF0).set 1 0xFFFFFFFFFFFFFFF0

/-! ### Well-formedness -/

/-- `k` is an 8-bit field (R50): 255 can be presented, 256 cannot. -/
theorem test_wellFormed_k :
    (Instr.modp2 0 0 255).WellFormed ∧ ¬ (Instr.modp2 0 0 256).WellFormed := by decide

/-! ### Decoding -/

/-- The 13 words of R59. -/
theorem test_decode_words :
    [0x01180000, 0x02500000, 0x03800038, 0x04000000, 0x08400000, 0x09400000, 0x10005000,
      0x1113F000, 0x12C3FE00, 0x1303E000, 0x14100600, 0x15800600, 0x1F000000].map
        (decodeTableWord 32) =
      [some (.add 0 1 2), some (.adds 1 1 0), some (.modp2 2 0 56), some (.reduce 0 0 0),
        some (.trns 1 0), some (.trna 1 0), some (.ldm 0 5 0), some (.stm 1 63),
        some (.ldp 3 63 7 0), some (.stp 0 62 0), some (.putl 0 3 1), some (.getl 2 0 3),
        some .rdcap] := by decide

/-- Words of the programs P1, P2, P4. -/
theorem test_decode_programs :
    [0x15400400, 0x08500000, 0x1203F000, 0x01A80000, 0x1323D000, 0x030000FF].map
        (decodeTableWord 32) =
      [some (.getl 1 0 2), some (.trns 1 1), some (.ldp 0 63 0 0), some (.add 2 2 2),
        some (.stp 2 61 0), some (.modp2 0 0 255)] := by decide

/-- The illegal words of V13. -/
theorem test_decode_illegal :
    [0x01180001, 0x01181000, 0x02540000, 0x03400141, 0x04000038, 0x09400001, 0x00000000,
      0xFFFFFFFF, 0x05000000, 0x07000000, 0x0A000000, 0x16000000, 0x1E000000, 0x20000000,
      0x1F400000, 0x10500000, 0x10000200, 0x11400000].map (decodeTableWord 32) =
      List.replicate 18 none := by decide

/-- The data operand stands above the command word in a 96-bit packet. -/
theorem test_decode_data :
    decodeTableWord 96 0x0123456789ABCDEF10005000 = some (.ldm 0 5 0x0123456789ABCDEF) := by
  decide

/-- The encoder writes the words of R59. -/
theorem test_encode :
    encode (.putl 0 3 1) = ⟨0x14100600, 0⟩ ∧ encode (.ldp 3 63 7 1) = ⟨0x12C3FE00, 1⟩ ∧
      encode (.modp2 2 0 56) = ⟨0x03800038, 0⟩ := by decide

/-- Assembler syntax (R59). -/
theorem test_assembly :
    assembly (.add 0 1 2) = "ADD B0, B1, B2" ∧ assembly (.stp 0 62 0) = "STP B0[62].0" ∧
      assembly (.modp2 2 0 56) = "MODP2 B2, B0, #56" := by decide

/-! ### Values -/

/-- Row 4 of V6, in one lane. -/
theorem test_fullAdder :
    let v := fun w : Word => (Vector.replicate 8 w : VectorWord)
    let r := fullAdder (v 0x00000000FFFFFFFF) (v 0x0000FFFF0000FFFF) (v 0x00FF00FF00FF00FF)
    r.1[0] = 0x00FFFF00FF0000FF ∧ r.2[7] = 0x000000FF00FFFFFF := by decide

/-- `SPLANES` of 6 (V8). -/
theorem test_scalarPlanes :
    (scalarPlanes 6)[61] = onesPlane ∧ (scalarPlanes 6)[62] = onesPlane ∧
      (scalarPlanes 6)[63] = zeroPlane ∧ (scalarPlanes 6)[60] = zeroPlane := by decide

/-- The mask sequence of R86 (V9). -/
theorem test_masks :
    nextMask 32 0x00000000FFFFFFFF = 0x0000FFFF0000FFFF ∧
      nextMask 16 0x0000FFFF0000FFFF = 0x00FF00FF00FF00FF ∧
      nextMask 8 0x00FF00FF00FF00FF = 0x0F0F0F0F0F0F0F0F ∧
      nextMask 4 0x0F0F0F0F0F0F0F0F = 0x3333333333333333 ∧
      nextMask 2 0x3333333333333333 = 0x5555555555555555 := by decide

/-- The rows g = 0 and g = 7 of the byte-gather table (V11). -/
theorem test_gatherPerm :
    [0, 1, 2, 3, 4, 5, 6, 7, 56, 57, 58, 59, 60, 61, 62, 63].map gatherPerm =
      [7, 15, 23, 31, 39, 47, 55, 63, 0, 8, 16, 24, 32, 40, 48, 56] := by decide

/-- `BT8` alone (V12), in closed form and by the byte-affine instruction. -/
theorem test_blockTranspose :
    blockTranspose 0x0000000000000001 = 0x0000000000000080 ∧
      blockTranspose 0x00000000000000FF = 0x8080808080808080 ∧
      byteAffine 0x8000000000000000 stageTwoConstant = 0x0100000000000000 := by decide +kernel

/-! ### The commands -/

/-- V1: the carry goes one plane up, and no further; the answer is `0 / 0`. -/
theorem test_add :
    let o := exec (.add 0 1 2) sample
    lane o 0 62 3 = some (BitVec.allOnes 64) ∧ lane o 0 63 3 = some 0 ∧ lane o 0 61 3 = some 0 ∧
      lane o 1 63 3 = some (BitVec.allOnes 64) ∧ answers o = some [(0, 0)] := by decide

/-- V7, all ones plus one: the carry out of plane 0 is dropped; the destination is a source. -/
theorem test_add_wraps :
    let o := exec (.add 0 0 1) sample
    lane o 0 63 7 = some 0 ∧ lane o 0 0 7 = some 0 := by decide +kernel

/-- V2, in place. -/
theorem test_adds :
    let o := exec (.adds 1 1 1) sample
    lane o 1 62 0 = some (BitVec.allOnes 64) ∧ lane o 1 63 0 = some 0 ∧
      answers o = some [(0, 0)] := by decide

/-- V3. -/
theorem test_modp2 :
    let o := exec (.modp2 2 0 56) sample
    lane o 2 7 0 = some 0 ∧ lane o 2 8 0 = some (BitVec.allOnes 64) ∧
      lane o 0 7 0 = some (BitVec.allOnes 64) ∧ answers o = some [(0, 0)] := by decide

/-- V9: `k` = 64 is legal; `k` = 255 in place is `1 / 0` and changes nothing. -/
theorem test_modp2_range :
    lane (exec (.modp2 1 0 64) sample) 1 0 0 = some (BitVec.allOnes 64) ∧
      exec (.modp2 0 0 255) sample = .next (sample.respond .errParam 0) :=
  ⟨by decide, rfl⟩

/-- V16, 2^64 − 1 plus 1. -/
theorem test_reduce :
    let o := exec (.reduce 0 0 1) sample
    lane o 0 63 0 = some 0 ∧ lane o 0 0 0 = some 0 ∧ answers o = some [(0, 0)] := by decide

/-- V16, the high bits of the index are dropped: 1 + 0xFF00000000000003 gives 4. -/
theorem test_reduce_high :
    let o := exec (.reduce 3 1 0xFF00000000000003) sample
    lane o 3 61 0 = some (BitVec.allOnes 64) ∧ lane o 3 63 0 = some 0 ∧ lane o 3 7 0 = some 0 := by
  decide

/-- V4. -/
theorem test_trns :
    let o := exec (.trns 1 0) ((blank false []).setMatrix 0 scenarioFour)
    word o 1 0 = some 0xC000000000000000 ∧ word o 1 59 = some 0xC000000000000000 ∧
      word o 1 60 = some 0 ∧ word o 0 1 = some 0xFFFFFFFFFFFFFFF0 := by decide +kernel

/-- V10, fifth line: bit 8 of word 5 goes to bit 58 of row 55. -/
theorem test_trna :
    let s := (blank true []).setMatrix 0 (zeroMatrix.set 5 0x100)
    word (exec (.trna 0 0) s) 0 55 = some 0x0400000000000000 ∧
      word (exec (.trna 0 0) s) 0 5 = some 0 := by decide +kernel

/-- V13: without the accelerated datapath, `2 / 0` and no change. -/
theorem test_trna_absent :
    exec (.trna 0 0) sample = .next (sample.respond .errIllegal 0) := rfl

/-- V14. -/
theorem test_ldm :
    let o := exec (.ldm 0 5 0x0123456789ABCDEF) sample
    word o 0 5 = some 0x0123456789ABCDEF ∧ word o 0 4 = some 0 ∧ word o 1 5 = some 0 ∧
      answers o = some [(0, 0)] := by decide

/-- V14. -/
theorem test_stm :
    let s := sample.setMatrix 0 (zeroMatrix.set 5 0x0123456789ABCDEF)
    answers (exec (.stm 0 5) s) = some [(0, 0x0123456789ABCDEF)] := by decide

/-- V14: one lane of one plane. -/
theorem test_ldp :
    let o := exec (.ldp 3 63 7 0xFFFFFFFFFFFFFFFF) sample
    lane o 3 63 7 = some 0xFFFFFFFFFFFFFFFF ∧ lane o 3 63 6 = some 0 ∧ lane o 3 62 7 = some 0 ∧
      answers o = some [(0, 0)] := by decide

/-- P1: plane 63 of `B1` is all ones, plane 62 zero. -/
theorem test_stp :
    answers (exec (.stp 1 63 0) sample) = some [(0, 0xFFFFFFFFFFFFFFFF)] ∧
      answers (exec (.stp 1 62 0) sample) = some [(0, 0)] := by decide

/-- V14: word 5 of `M0` goes to plane 5, and the old lane 7 is overwritten everywhere. -/
theorem test_putl :
    let o := exec (.putl 0 7 0) (sample.setMatrix 0 (zeroMatrix.set 5 0x0123456789ABCDEF))
    lane o 0 5 7 = some 0x0123456789ABCDEF ∧ lane o 0 63 7 = some 0 ∧
      lane o 0 63 6 = some (BitVec.allOnes 64) := by decide

/-- V14. -/
theorem test_getl :
    let o := exec (.getl 2 1 7) sample
    word o 2 63 = some (BitVec.allOnes 64) ∧ word o 2 62 = some 0 ∧ word o 1 63 = some 0 := by
  decide

/-- V15. -/
theorem test_rdcap :
    answers (exec .rdcap (blank false [])) = some [(0, 0x0000000044380840)] ∧
      answers (exec .rdcap (blank true [])) = some [(0, 0x0000000144380840)] := by decide

/-! ### Steps -/

/-- V13: `MODP2 B1, B0, #65` is `1 / 0`; with bit 8 set as well, `2 / 0`. -/
theorem test_step_errors :
    answers (step (asked false 0x03400041)) = some [(1, 0)] ∧
      answers (step (asked false 0x03400141)) = some [(2, 0)] := by decide

/-- V13: opcode 0x00, `TRNA` without its datapath, and with it but with `k` = 1. -/
theorem test_step_illegal :
    answers (step (asked false 0x00000000)) = some [(2, 0)] ∧
      answers (step (asked false 0x09400000)) = some [(2, 0)] ∧
      answers (step (asked true 0x09400001)) = some [(2, 0)] := by decide

/-- The first step after reset runs a word placed for it, whatever the registers hold. -/
theorem test_step_after_reset :
    answers (step (State.reset.withFetchWord 32 0x01180000)) = some [(0, 0)] := by decide

/-! ### Witnesses: the hypotheses of each obligation can hold together -/

/-- A core about to be asked has its request as its oldest input. -/
theorem asked_inputs (accel : Bool) (cmd : BitVec 32) :
    (asked accel cmd).inputs = .request ⟨cmd, 0⟩ :: [.reset] := rfl

/-- A command has a next state; its hypothesis in every statement about one. -/
theorem exec_some (i : Instr) (s : State) : ∃ t, exec i s = .next t :=
  (exec_effect i s).imp fun _ h => h.1

/-- `MODP2 B1, B0, #65`, answered. -/
theorem step_modp2_65 : step (asked false 0x03400041) =
    .next ((blank false [.reset]).respond .errParam 0) :=
  (step_of_ok (asked_inputs false 0x03400041)
    (show decode ⟨0x03400041, 0⟩ = .ok (.modp2 1 0 65) by decide)).trans rfl

/-- `ADD` with `k` bit 0 set, answered. -/
theorem step_illegal : step (asked false 0x01180001) =
    .next ((blank false [.reset]).respond .errIllegal 0) :=
  (step_of_error (asked_inputs false 0x01180001)
    (show decode ⟨0x01180001, 0⟩ = .error (.mustBeZero .add) by decide)).trans rfl

/-- `TRNS M1, M0`, answered. -/
theorem step_trns : step (asked false 0x08400000) =
    .next (((blank false [.reset]).setMatrix 1 (transpose ((blank false [.reset]).getMatrix 0)))
      |>.respondOk) :=
  (step_of_ok (asked_inputs false 0x08400000)
    (show decode ⟨0x08400000, 0⟩ = .ok (.trns 1 0) by decide)).trans rfl

theorem witness_DecodeOfEncode : (Instr.modp2 3 2 255).WellFormed ∧
    (Instr.ldp 3 63 7 (BitVec.allOnes 64)).WellFormed := by decide

theorem witness_EncodeOfDecode : decode ⟨0x02500000, 1⟩ = .ok (.adds 1 1 1) ∧
    (Instr.adds 1 1 1).usesData = true := by decide

theorem witness_LegalWordsAreTheTable :
    (0x01180000 : BitVec 32) &&& Opcode.add.format.mask = Opcode.add.matchWord := by decide

theorem witness_OneMeaningPerWord_match :
    (0x030000FF : BitVec 32) &&& Opcode.modp2.format.mask = Opcode.modp2.matchWord := by decide

theorem witness_OneMeaningPerWord_none :
    ∀ o : Opcode, (0x03400141 : BitVec 32) &&& o.format.mask ≠ o.matchWord := by
  intro o
  cases o <;> decide

theorem witness_DataOperandUse_used : decode ⟨0x12C3FE00, 7⟩ = .ok (.ldp 3 63 7 7) ∧
    (Instr.ldp 3 63 7 7).opcode ∈ [Opcode.adds, .reduce, .ldm, .ldp] := by decide

theorem witness_DataOperandUse_ignored : decode ⟨0x01180000, 7⟩ = .ok (.add 0 1 2) ∧
    (Instr.add 0 1 2).opcode ∉ [Opcode.adds, .reduce, .ldm, .ldp] := by decide

theorem witness_StepRunsDecoded :
    (asked true 0x09400000).inputs = .request ⟨0x09400000, 0⟩ :: [.reset] ∧
      decode ⟨0x09400000, 0⟩ = .ok (.trna 1 0) :=
  ⟨rfl, by decide⟩

theorem witness_RunFollowsCommandOrder :
    let is : List Instr := [.modp2 1 0 65, .ldm 0 63 1, .rdcap]
    (∀ i ∈ is, i.WellFormed) ∧
      (blank true (is.map (fun i => .request (encode i)) ++ [.reset])).inputs =
        is.map (fun i => .request (encode i)) ++ [.reset] :=
  ⟨by decide, rfl⟩

theorem witness_StepAlwaysAnswers : State.reset.inputs = [] ∧
    (asked false 0).inputs = .request ⟨0, 0⟩ :: [.reset] := ⟨rfl, rfl⟩

theorem witness_OrderOfChecks :
    (asked false 0x05000000).inputs = .request ⟨0x05000000, 0⟩ :: [.reset] ∧
      statusOf false 0x05000000 = .errIllegal ∧ statusOf false 0x09400000 = .errIllegal ∧
      statusOf true 0x09400000 = .ok ∧ statusOf true 0x09400001 = .errIllegal ∧
      statusOf true 0x03400141 = .errIllegal ∧ statusOf true 0x03400041 = .errParam ∧
      statusOf true 0x03400040 = .ok ∧ statusOf true 0x04000000 = .ok :=
  ⟨rfl, by decide⟩

theorem witness_StatusIndependentOfData :
    let s := asked false 0x02500000
    let s' := (blank false (ask 0x02500000 7)).setBatch 1 planeOne
    s.inputs = .request ⟨0x02500000, 0⟩ :: [.reset] ∧
      s'.inputs = .request ⟨0x02500000, 7⟩ :: [.reset] ∧ s.hasAccel = s'.hasAccel ∧
      (s.getBatch 1)[63] ≠ (s'.getBatch 1)[63] :=
  ⟨rfl, rfl, rfl, by decide⟩

theorem witness_MustBeZeroBitIsIllegal_field :
    (asked false 0x01180001).inputs = .request ⟨0x01180001, 0⟩ :: [.reset] ∧
      (0x01180001 : BitVec 32).extractLsb' 24 8 = Opcode.add.code ∧
      ¬ Opcode.add.format.mustBeZero (Fields.ofCmd 0x01180001) :=
  ⟨rfl, by decide, fun h => absurd h.2.2.2 (by decide)⟩

theorem witness_MustBeZeroBitIsIllegal_bit8 :
    (asked false 0x03400141).inputs = .request ⟨0x03400141, 0⟩ :: [.reset] ∧
      (0x03400141 : BitVec 32).extractLsb' 24 8 = Opcode.modp2.code ∧
      (0x03400141 : BitVec 32).getLsbD 8 = true :=
  ⟨rfl, by decide, by decide⟩

theorem witness_UndefinedOpcodeIsIllegal_reserved :
    (asked true 0xFFFFFFFF).inputs = .request ⟨0xFFFFFFFF, 0⟩ :: [.reset] ∧
      (0xFFFFFFFF : BitVec 32).extractLsb' 24 8 ∉ ([0x01, 0x02, 0x03, 0x04, 0x08, 0x09, 0x10,
        0x11, 0x12, 0x13, 0x14, 0x15, 0x1F] : List (BitVec 8)) :=
  ⟨rfl, by decide⟩

theorem witness_UndefinedOpcodeIsIllegal_trna :
    (asked false 0x09400001).inputs = .request ⟨0x09400001, 0⟩ :: [.reset] ∧
      (0x09400001 : BitVec 32).extractLsb' 24 8 = (0x09 : BitVec 8) ∧
      (asked false 0x09400001).hasAccel = false :=
  ⟨rfl, by decide, rfl⟩

theorem witness_IllegalBeforeParam :
    (asked false 0x03440041).inputs = .request ⟨0x03440041, 0⟩ :: [.reset] ∧
      (0x03440041 : BitVec 32).extractLsb' 24 8 = (0x03 : BitVec 8) ∧
      64 < kOf ⟨0x03440041, 0⟩ ∧ (0x03440041 : BitVec 32) &&& 0x000FFF00 ≠ 0 :=
  ⟨rfl, by decide, by decide, by decide⟩

theorem witness_ErrorsChangeNothing : ∃ t, step (asked false 0x03400041) = .next t ∧
    t.responses = ⟨.errParam, 0⟩ :: (asked false 0x03400041).responses ∧
    Status.errParam ≠ .ok :=
  ⟨_, step_modp2_65, rfl, by decide⟩

theorem witness_RdataZeroUnlessRead_error : ∃ t, step (asked false 0x01180001) = .next t ∧
    t.responses = ⟨.errIllegal, 0⟩ :: (asked false 0x01180001).responses ∧
    Status.errIllegal ≠ .ok :=
  ⟨_, step_illegal, rfl, by decide⟩

theorem witness_RdataZeroUnlessRead_ok : ∃ t, step (asked false 0x08400000) = .next t ∧
    t.responses = ⟨.ok, 0⟩ :: (asked false 0x08400000).responses ∧
    (0x08400000 : BitVec 32).extractLsb' 24 8 ∉ ([0x11, 0x13, 0x1F] : List (BitVec 8)) :=
  ⟨_, step_trns, rfl, by decide⟩

theorem witness_LegalCommandsAnswerOk_modp2 :
    (∀ rd rs1 k, Instr.modp2 1 0 64 = .modp2 rd rs1 k → k ≤ 64) ∧
      ((Instr.modp2 1 0 64).opcode = .trna → (blank false []).hasAccel = true) :=
  ⟨fun _ _ _ h => by cases h; decide, by decide⟩

theorem witness_LegalCommandsAnswerOk_trna :
    (∀ rd rs1 k, Instr.trna 1 0 = .modp2 rd rs1 k → k ≤ 64) ∧
      ((Instr.trna 1 0).opcode = .trna → (blank true []).hasAccel = true) :=
  ⟨fun _ _ _ h => (nomatch h), fun _ => rfl⟩

theorem witness_ErrorsLeaveNoTrace : ∃ t,
    OnlyAnswers sample (sample.respondError .errParam) .errParam 0 ∧
      exec (.add 0 1 2) sample = .next t :=
  ⟨_, onlyAnswers_respond sample .errParam 0, rfl⟩

theorem witness_ReadsAreSilentWritesIdempotent_read : ∃ t,
    (Instr.stp 1 63 7).opcode ∈ [Opcode.stm, .stp, .rdcap] ∧
      exec (.stp 1 63 7) sample = .next t :=
  ⟨_, by decide, rfl⟩

theorem witness_ReadsAreSilentWritesIdempotent_write : ∃ t u,
    (Instr.putl 0 7 0).opcode ∈ [Opcode.ldm, .ldp, .putl, .getl] ∧
      exec (.putl 0 7 0) sample = .next t ∧ exec (.putl 0 7 0) t = .next u :=
  ⟨_, _, by decide, rfl, rfl⟩

/-- A core with an error already answered, about to be asked for one more. -/
theorem witness_ErrorsCarryZeroKept : ∃ t,
    ErrorsCarryZero ((blank false []).respond .errParam 0) ∧
      step (((blank false []).respond .errParam 0).present ⟨0, 0⟩) = .next t ∧
      ErrorsCarryZero (((blank false []).respond .errParam 0).present ⟨0, 0⟩) := by
  have inv : ErrorsCarryZero ((blank false []).respond .errParam 0) := by
    intro r hr _
    rcases List.mem_singleton.1 hr with rfl
    rfl
  exact ⟨_, inv, step_of_error rfl
    (show decode ⟨0, 0⟩ = .error (.undefinedOpcode 0) by decide), inv⟩

theorem witness_OneResponsePerRequest : ∃ t, step (asked false 0x01180001) = .next t ∧
    pendingRequests (asked false 0x01180001) = 1 :=
  ⟨_, step_illegal, rfl⟩

theorem witness_CapabilityIsHardwired : ∃ t, step (asked false 0x08400000) = .next t :=
  ⟨_, step_trns⟩

theorem witness_ResetEventEffect : (blank true [.reset, .reset]).inputs = .reset :: [.reset] := rfl

theorem witness_WritersOfEachFile_batch : ∃ t,
    exec (.ldp 3 63 7 1) (blank false []) = .next t ∧ ¬ SameBatches (blank false []) t :=
  ⟨_, rfl, fun h => absurd (congrArg (fun X : Batch => X[63][7]) (h 3)) (by decide)⟩

theorem witness_WritersOfEachFile_matrix : ∃ t,
    exec (.ldm 3 63 1) (blank false []) = .next t ∧ ¬ SameMatrices (blank false []) t :=
  ⟨_, rfl, fun h => absurd (congrArg (fun A : BitMatrix => A[63]) (h 3)) (by decide)⟩

theorem witness_IntegersOfBatchBijective : ∀ n : Fin 512,
    (fun _ : Fin 512 => 2 ^ 64 - 1) n < 2 ^ 64 :=
  fun _ => show 2 ^ 64 - 1 < 2 ^ 64 by decide

theorem witness_ScalarAdditionIsAddition :
    ((blank false []).setBatch 2 (scalarPlanes 6)).getBatch 2 = scalarPlanes 6 := by simp

theorem witness_TruncationIsModulo : 64 ≤ 64 ∧ 0 ≤ 64 := by decide

theorem witness_Modp2Result : 64 ≤ 64 ∧ 64 < 65 ∧ ((0 : Index).val < 64 - 63) ∧
    64 - 63 ≤ (1 : Index).val := by decide

theorem witness_ParamErrorOnlyModp2 : ∃ t,
    (asked false 0x03400041).inputs = .request ⟨0x03400041, 0⟩ :: [.reset] ∧
      step (asked false 0x03400041) = .next t ∧
      (0x03400041 : BitVec 32) &&& 0xFF0FFF00 = 0x03000000 ∧ 64 < kOf ⟨0x03400041, 0⟩ :=
  ⟨_, rfl, step_modp2_65, by decide, by decide⟩

theorem witness_ReduceResult : (7 : Index).val < 8 := by decide

theorem witness_ArithmeticLaws : 0 ≤ 64 ∧ 64 ≤ 64 ∧ 64 < 65 := by decide

theorem witness_InPlaceAgreesWithFunctional_add : ∃ t u,
    exec (.add 1 1 2) sample = .next t ∧ exec (.add 0 1 2) sample = .next u := ⟨_, _, rfl, rfl⟩

theorem witness_InPlaceAgreesWithFunctional_adds : ∃ t u,
    exec (.adds 1 1 1) sample = .next t ∧ exec (.adds 0 1 1) sample = .next u := ⟨_, _, rfl, rfl⟩

theorem witness_InPlaceAgreesWithFunctional_modp2 : ∃ t u, 64 ≤ 64 ∧
    exec (.modp2 0 0 64) sample = .next t ∧ exec (.modp2 1 0 64) sample = .next u :=
  ⟨_, _, by decide, rfl, rfl⟩

theorem witness_InPlaceAgreesWithFunctional_reduce : ∃ t u,
    exec (.reduce 0 0 1) sample = .next t ∧ exec (.reduce 1 0 1) sample = .next u :=
  ⟨_, _, rfl, rfl⟩

theorem witness_RepeatedReduction : ([1, 2, 0xFF00000000000003] : List Word) ≠ [] := by decide

/-- Two cores that agree in lane 0 and differ in lane 7. -/
theorem witness_LanesAreIndependent : ∃ t t',
    let s' := (blank false []).setBatch 0 (writeLane zeroBatch 63 7 1)
    (Instr.add 1 0 0).opcode ∈ [Opcode.add, .adds, .modp2, .reduce] ∧
      (∀ r, AgreeAt 0 0 ((blank false []).getBatch r) (s'.getBatch r)) ∧
      exec (.add 1 0 0) (blank false []) = .next t ∧ exec (.add 1 0 0) s' = .next t' := by
  refine ⟨_, _, by decide, ?_, rfl, rfl⟩
  intro r i
  by_cases hr : r = 0
  · subst hr
    simp only [State.getBatch_setBatch]
    have := getElem_writeLane zeroBatch 63 i 7 0 1
    rw [if_neg (by simp)] at this
    simp only [planeBit, this]
    fin_cases i <;> rfl
  · simp [hr]

theorem witness_TrnaResult : (blank true []).hasAccel = true ∧ (blank false []).hasAccel = false :=
  ⟨rfl, rfl⟩

theorem witness_TransposeProperties : ∀ i : Index,
    scenarioFour[i] = if i.val < 2 then 0xFFFFFFFFFFFFFFF0 else 0 := by decide +kernel

end Sys2Proof.Tests
end

/-! The status of a response (00_scope.md R11, 30_encoding.md R58): the command's status depends on
`HAS_ACCEL` alone, the order of checks reads it off the command word, and every step on a request
answers it. -/

namespace Sys2Proof.Machine

/-- The status a command answers: only `MODP2` and `TRNA` can fail (60_exceptions.md R112, R113). -/
def commandStatus (hasAccel : Bool) : Instr → Status
  | .modp2 _ _ k => if 64 < k then .errParam else .ok
  | .trna _ _ => if hasAccel = false then .errIllegal else .ok
  | _ => .ok

/-- Every command answers its status, whatever the registers hold. -/
theorem exec_answers_commandStatus (i : Instr) (s : State) :
    ∃ t v, exec i s = .next t ∧ Answers s t (commandStatus s.hasAccel i) v := by
  cases i with
  | modp2 rd rs1 k =>
    by_cases hk : 64 < k
    · exact ⟨_, 0, execModp2_of_gt rd rs1 hk s, by simp [Answers, commandStatus, hk]⟩
    · exact ⟨_, 0, execModp2_of_le rd rs1 (by omega) s, by simp [Answers, commandStatus, hk]⟩
  | trna rd rs1 =>
    cases ha : s.hasAccel with
    | false => exact ⟨_, 0, execTrna_of_not_accel rd rs1 ha, rfl⟩
    | true => exact ⟨_, 0, execTrna_of_accel rd rs1 ha, rfl⟩
  | add | adds | reduce | trns | ldm | stm | ldp | stp | putl | getl | rdcap =>
    exact ⟨_, _, rfl, rfl⟩

theorem matchWord_eq_append (o : Opcode) : o.matchWord = o.code ++ (0 : BitVec 24) := by
  cases o <;> decide

/-- On a legal word the order of checks gives the status of the command it decodes to. -/
theorem statusOf_of_decode_ok {q : Request} {i : Instr} (hd : decode q = .ok i) (hasAccel : Bool) :
    statusOf hasAccel q.cmd = commandStatus hasAccel i := by
  obtain ⟨o, hm, rfl⟩ := decode_eq_ok.1 hd
  have hop : q.cmd.extractLsb' 24 8 = o.code := ((cmd_match_iff o q.cmd).1 hm).1
  simp only [statusOf, hop, Opcode.ofCode_code, hm, matchWord_eq_append]
  cases o <;> simp [commandStatus, Opcode.build, Fields.ofCmd]

/-- On a word that is no command the order of checks gives `ERR_ILLEGAL`. -/
theorem statusOf_of_decode_error {q : Request} {e : DecodeError} (hd : decode q = .error e)
    (hasAccel : Bool) : statusOf hasAccel q.cmd = .errIllegal := by
  have hne (o : Opcode) : q.cmd &&& o.format.mask ≠ o.matchWord := fun hm => by
    have := decode_eq_ok.2 ⟨o, hm, rfl⟩
    rw [hd] at this
    cases this
  cases ho : Opcode.ofCode (q.cmd.extractLsb' 24 8) with
  | none => simp [statusOf, ho]
  | some o =>
    have hm := hne o
    rw [matchWord_eq_append, ← Opcode.code_of_ofCode ho] at hm
    simp only [statusOf, ho, if_pos hm, ite_self]

/-- A step on a request answers the status the order of checks reads off the command word and
`HAS_ACCEL` (30_encoding.md R58). -/
theorem step_answers_statusOf {s : State} {q : Request} {rest : List Input}
    (h : s.inputs = .request q :: rest) :
    ∃ t v, step s = .next t ∧ Answers s t (statusOf s.hasAccel q.cmd) v := by
  cases hd : decode q with
  | ok i =>
    rw [step_of_ok h hd, statusOf_of_decode_ok hd]
    exact exec_answers_commandStatus i { s with inputs := rest }
  | error e =>
    rw [step_of_error h hd, statusOf_of_decode_error hd]
    exact ⟨_, 0, rfl, rfl⟩

/-- Settles O11: both statuses are `statusOf` of the same `HAS_ACCEL` and the same command word. -/
theorem statusIndependentOfData : Obligations.StatusIndependentOfData := by
  intro s s' q q' rest rest' h h' hcmd haccel
  obtain ⟨t, v, hstep, hans⟩ := step_answers_statusOf h
  obtain ⟨t', v', hstep', hans'⟩ := step_answers_statusOf h'
  exact ⟨t, t', ⟨_, v⟩, ⟨_, v'⟩, hstep, hstep', hans, hans', congrArg₂ statusOf haccel hcmd⟩

end Sys2Proof.Machine

/-! The integers of a batch (10_state.md R17): the batch with given integers, built bit by bit. -/

namespace Sys2Proof.Machine

/-- The batch whose integer number `n` is the word `g n`: bit `p` of lane `l` of plane `i` is bit
`63 − i` of integer `64·l + p` (10_state.md R15, R16). -/
def batchOfWords (g : Fin 512 → Word) : Batch :=
  Vector.ofFn fun i => Vector.ofFn fun l => wordOfBits fun p =>
    (g ⟨64 * l.val + p.val, by omega⟩).getLsbD i.rev.val

theorem planeBit_batchOfWords (g : Fin 512 → Word) (i : Index) (l : Lane) (p : Fin 64) :
    planeBit (batchOfWords g) i l p = (g ⟨64 * l.val + p.val, by omega⟩).getLsbD i.rev.val := by
  simp only [planeBit, batchOfWords, Fin.getElem_fin, Vector.getElem_ofFn, getLsbD_wordOfBits]

@[simp] theorem intWord_batchOfWords (g : Fin 512 → Word) (n : Fin 512) :
    intWord (batchOfWords g) n = g n := by
  apply word_ext
  intro b
  have hn : 64 * (n.val / 64) + n.val % 64 = n.val := Nat.div_add_mod n.val 64
  simp only [getLsbD_intWord, intBit, planeBit_batchOfWords, Fin.rev_rev, hn]

/-- Settles O28: integers are words, `batchOfWords` gives the batch with 512 given words, and words
determine the batch. -/
theorem integersOfBatchBijective : Obligations.IntegersOfBatchBijective := by
  constructor
  · intro X n
    rw [intOf_eq_toNat]
    exact (intWord X n).isLt
  · intro f hf
    have hword (n) : (BitVec.ofNat 64 (f n)).toNat = f n := Nat.mod_eq_of_lt (hf n)
    refine ⟨batchOfWords fun n => BitVec.ofNat 64 (f n), fun n => ?_, fun Y hY => ?_⟩
    · rw [intOf_eq_toNat, intWord_batchOfWords, hword]
    · apply batch_ext_intWord
      intro n
      apply BitVec.eq_of_toNat_eq
      rw [intWord_batchOfWords, hword, ← intOf_eq_toNat, hY n]

end Sys2Proof.Machine

/-! Independence of the 512 bit positions of a plane (10_state.md R12, 70_reset_and_hazards.md
R130): each batch function keeps agreement at a position, so the commands that write its results
do. -/

namespace Sys2Proof.Machine

/-- The carry at a bit position is read off that position alone. -/
theorem carryBit_congr {a a' b b' : Batch} {l : Lane} {p : Fin 64} (ha : AgreeAt l p a a')
    (hb : AgreeAt l p b b') :
    ∀ (n : Nat) (h : n ≤ 64), carryBit a b l p n h = carryBit a' b' l p n h
  | 0, _ => rfl
  | n + 1, h => by simp only [carryBit, ha _, hb _, carryBit_congr ha hb n]

theorem agreeAt_ripple {a a' b b' : Batch} {l : Lane} {p : Fin 64} (ha : AgreeAt l p a a')
    (hb : AgreeAt l p b b') : AgreeAt l p (ripple a b) (ripple a' b') := by
  intro i
  rw [planeBit_ripple, planeBit_ripple, ha i, hb i, carryBit_congr ha hb]

theorem agreeAt_truncate {a a' : Batch} {l : Lane} {p : Fin 64} (k : Nat) (ha : AgreeAt l p a a') :
    AgreeAt l p (truncate a k) (truncate a' k) := by
  intro i
  rw [planeBit_truncate, planeBit_truncate, ha i]

/-- Writing batches that agree to the same register keeps agreement of every register. -/
theorem agreeAt_setBatch {s s' : State} {l : Lane} {p : Fin 64} {X X' : Batch} (rd : BReg)
    (hs : ∀ r, AgreeAt l p (s.getBatch r) (s'.getBatch r)) (hX : AgreeAt l p X X') (r : BReg) :
    AgreeAt l p ((s.setBatch rd X).respondOk.getBatch r)
      ((s'.setBatch rd X').respondOk.getBatch r) := by
  by_cases hr : r = rd
  · subst hr
    simpa using hX
  · simpa [hr] using hs r

/-- Settles O40: the batch each command writes is a composition of functions that keep agreement. -/
theorem lanesAreIndependent : Obligations.LanesAreIndependent := by
  intro i s s' t t' l p hop hs ht ht'
  cases i with
  | add rd rs1 rs2 =>
    cases ht
    cases ht'
    exact agreeAt_setBatch rd hs (agreeAt_ripple (hs rs1) (hs rs2))
  | adds rd rs1 x =>
    cases ht
    cases ht'
    exact agreeAt_setBatch rd hs (agreeAt_ripple (hs rs1) fun _ => rfl)
  | modp2 rd rs1 k =>
    simp only [exec] at ht ht'
    by_cases hk : k ≤ 64
    · rw [execModp2_of_le rd rs1 hk] at ht ht'
      cases ht
      cases ht'
      exact agreeAt_setBatch rd hs (agreeAt_truncate k (hs rs1))
    · rw [execModp2_of_gt rd rs1 (by omega)] at ht ht'
      cases ht
      cases ht'
      exact hs
  | reduce rd rs1 x =>
    cases ht
    cases ht'
    exact agreeAt_setBatch rd hs (agreeAt_truncate _ (agreeAt_ripple (hs rs1) fun _ => rfl))
  | trns | trna | ldm | stm | ldp | stp | putl | getl | rdcap => simp [Instr.opcode] at hop

end Sys2Proof.Machine

/-! What a command or a reset leaves of the state (10_state.md R20 to R30): the writers of each
register file, the hardwired `CAP`, the reset event and the first reads after it. -/

namespace Sys2Proof.Machine

/-- A command leaves the batch file alone, unless it is one of the six writers (10_state.md R20). -/
theorem exec_sameBatches_or_writer {i : Instr} {s t : State} (h : exec i s = .next t) :
    SameBatches s t ∨ i.opcode ∈ [Opcode.add, .adds, .modp2, .reduce, .ldp, .putl] := by
  cases i with
  | add | adds | modp2 | reduce | ldp | putl => exact .inr (by simp [Instr.opcode])
  | trna rd rs1 =>
    simp only [exec] at h
    cases ha : s.hasAccel with
    | false => rw [execTrna_of_not_accel rd rs1 ha] at h; cases h; exact .inl fun _ => rfl
    | true => rw [execTrna_of_accel rd rs1 ha] at h; cases h; exact .inl fun _ => rfl
  | trns | ldm | stm | stp | getl | rdcap =>
    cases h
    exact .inl fun _ => rfl

/-- A command leaves the matrix file alone, unless it is one of the four writers
(10_state.md R21). -/
theorem exec_sameMatrices_or_writer {i : Instr} {s t : State} (h : exec i s = .next t) :
    SameMatrices s t ∨ i.opcode ∈ [Opcode.trns, .trna, .getl, .ldm] := by
  cases i with
  | trns | trna | getl | ldm => exact .inr (by simp [Instr.opcode])
  | modp2 rd rs1 k =>
    simp only [exec] at h
    by_cases hk : k ≤ 64
    · rw [execModp2_of_le rd rs1 hk] at h; cases h; exact .inl fun _ => rfl
    · rw [execModp2_of_gt rd rs1 (by omega)] at h; cases h; exact .inl fun _ => rfl
  | add | adds | reduce | stm | ldp | stp | putl | rdcap =>
    cases h
    exact .inl fun _ => rfl

/-- Settles O26: a file that changed was not left alone, so the command is one of its writers. -/
theorem writersOfEachFile : Obligations.WritersOfEachFile := fun _ _ _ h =>
  ⟨(exec_sameBatches_or_writer h).resolve_left, (exec_sameMatrices_or_writer h).resolve_left⟩

/-- `HAS_ACCEL` is hardwired: neither a command nor a reset nor an idle step touches it. -/
theorem step_keeps_hasAccel {s t : State} (h : step s = .next t) : t.hasAccel = s.hasAccel := by
  obtain ⟨_, rfl⟩ | ⟨_, _, rfl⟩ | ⟨_, _, _, he⟩ := step_effect h
  · rfl
  · rfl
  · obtain ⟨_, _, _, ⟨haccel, _, _⟩, _⟩ := effect_answers he
    exact haccel

/-- Settles O23: a step keeps `HAS_ACCEL`, and `CAP` has one value for each `HAS_ACCEL`. -/
theorem capabilityIsHardwired : Obligations.CapabilityIsHardwired := by
  refine ⟨fun s t h => congrArg capability (step_keeps_hasAccel h), fun a => ?_, ?_, ?_⟩
  · cases a <;> decide
  · decide
  · decide

theorem getElem_unspecifiedBatches (era : Nat) (r : BReg) (i : Index) (l : Lane) :
    (unspecifiedBatches era)[r][i][l] = Config.resetLane era r.val i.val l.val := by
  simp [unspecifiedBatches]

theorem getElem_unspecifiedMatrices (era : Nat) (r : MReg) (i : Index) :
    (unspecifiedMatrices era)[r][i] = Config.resetWord era r.val i.val := by
  simp [unspecifiedMatrices]

/-- Settles O24: the step is `coldReset`, whose register files are the unspecified ones. -/
theorem resetEventEffect : Obligations.ResetEventEffect := fun s _ h =>
  ⟨_, step_of_reset h, rfl, rfl, rfl, rfl, getElem_unspecifiedBatches (s.resets + 1),
    getElem_unspecifiedMatrices (s.resets + 1)⟩

/-- Settles O25: `STP` and `STM` only answer, with the element of the unspecified file. -/
theorem resetStateReads : Obligations.ResetStateReads := by
  refine ⟨State.reset_inputs, State.reset_responses, fun r i l => ?_, fun r i => ?_⟩
  · rw [← getElem_unspecifiedBatches]
    exact ⟨_, rfl, onlyAnswers_respond State.reset .ok _⟩
  · rw [← getElem_unspecifiedMatrices]
    exact ⟨_, rfl, onlyAnswers_respond State.reset .ok _⟩

end Sys2Proof.Machine

/-! The command port (20_memory.md R36 to R40): a legal request is its command on the rest of the
state, so a list of encoded commands is performed in its order; and what reading an element, or
writing one again, leaves. -/

namespace Sys2Proof

/-- Every command's word passes its own mask test (30_encoding.md R52). -/
theorem encode_matches (i : Instr) : (encode i).cmd &&& i.opcode.format.mask = i.opcode.matchWord :=
  match i with
  | .add rd rs1 rs2 => Laws.LegalWord.add rd rs1 rs2
  | .adds rd rs1 x => Laws.LegalWord.adds rd rs1 x
  | .modp2 rd rs1 k => Laws.LegalWord.modp2 rd rs1 k
  | .reduce rd rs1 x => Laws.LegalWord.reduce rd rs1 x
  | .trns rd rs1 => Laws.LegalWord.trns rd rs1
  | .trna rd rs1 => Laws.LegalWord.trna rd rs1
  | .ldm rd idx v => Laws.LegalWord.ldm rd idx v
  | .stm rs1 idx => Laws.LegalWord.stm rs1 idx
  | .ldp rd idx lane v => Laws.LegalWord.ldp rd idx lane v
  | .stp rs1 idx lane => Laws.LegalWord.stp rs1 idx lane
  | .putl rd lane rs1 => Laws.LegalWord.putl rd lane rs1
  | .getl rd rs1 lane => Laws.LegalWord.getl rd rs1 lane
  | .rdcap => Laws.LegalWord.rdcap

/-- A well-formed command is what its own fields and data operand spell; only the exponent of
`MODP2` can fail to fit its field (30_encoding.md R50). -/
theorem build_fields {i : Instr} (hi : i.WellFormed) : i.opcode.build i.fields i.data = i := by
  cases i with
  | modp2 rd rs1 k =>
    have hk : k ≤ 255 := of_decide_eq_true hi
    have hfits : (BitVec.ofNat 8 k).toNat = k := Nat.mod_eq_of_lt (by omega)
    exact congrArg (Instr.modp2 rd rs1) hfits
  | _ => rfl

theorem decode_encode {i : Instr} (hi : i.WellFormed) : decode (encode i) = .ok i := by
  refine decode_eq_ok.2 ⟨i.opcode, encode_matches i, ?_⟩
  simp only [encode, Fields.ofCmd_toCmd, build_fields hi]

end Sys2Proof

namespace Sys2Proof.Machine

/-- Settles O7: both parts are the step on a legal word; the second has the port as it was. -/
theorem stepRunsDecoded : Obligations.StepRunsDecoded :=
  ⟨fun _ _ _ _ h hd => step_of_ok h hd, fun s _ _ hd => step_of_ok (s.present_inputs _) hd⟩

theorem execAll_cons {i : Instr} {s t : State} (h : exec i s = .next t) (is : List Instr) :
    execAll (i :: is) s = execAll is t := by
  simp only [execAll, h]

/-- A step on an encoded command performs it on a state with any other port, and the port keeps
what followed. -/
theorem step_of_encode {i : Instr} {s t : State} {later rest : List Input} (hi : i.WellFormed)
    (hin : s.inputs = .request (encode i) :: later)
    (ht : exec i { s with inputs := rest } = .next t) :
    step s = .next { t with inputs := later } := by
  rw [step_of_ok hin (decode_encode hi)]
  exact exec_with_inputs (s := { s with inputs := rest }) i later ht

/-- Settles O8, by induction on the commands: the first step performs the first command, which
leaves the others pending. -/
theorem runFollowsCommandOrder : Obligations.RunFollowsCommandOrder := by
  intro is s rest hwf hin
  induction is generalizing s with
  | nil =>
    obtain rfl : s.inputs = rest := hin
    rfl
  | cons i is ih =>
    obtain ⟨hi, his⟩ := List.forall_mem_cons.1 hwf
    obtain ⟨t, ht, heff⟩ := exec_effect i { s with inputs := rest }
    obtain ⟨_, _, _, ⟨_, hport, _⟩, _⟩ := effect_answers heff
    obtain rfl : t.inputs = rest := hport
    rw [List.length_cons, core_run_succ _ (step_of_encode hi hin ht), execAll_cons ht]
    exact ih _ his rfl

/-- `STM`, `STP` and `RDCAP` do nothing but answer a word. -/
theorem exec_read {i : Instr} (hi : i.opcode ∈ [Opcode.stm, .stp, .rdcap]) (s : State) :
    ∃ v, exec i s = .next (s.respond .ok v) := by
  cases i with
  | stm | stp | rdcap => exact ⟨_, rfl⟩
  | add | adds | modp2 | reduce | trns | trna | ldm | ldp | putl | getl =>
    simp [Instr.opcode] at hi

/-- Writing a batch register with what it holds changes nothing. -/
theorem setBatch_of_getBatch_eq {s : State} {r : BReg} {X : Batch} (h : s.getBatch r = X) :
    s.setBatch r X = s := by
  subst h
  simp [State.setBatch, State.getBatch]

/-- Writing a matrix register with what it holds changes nothing. -/
theorem setMatrix_of_getMatrix_eq {s : State} {r : MReg} {A : BitMatrix} (h : s.getMatrix r = A) :
    s.setMatrix r A = s := by
  subst h
  simp [State.setMatrix, State.getMatrix]

theorem writeLane_writeLane (X : Batch) (i : Index) (l : Lane) (w : Word) :
    writeLane (writeLane X i l w) i l w = writeLane X i l w := by
  simp [writeLane]

theorem putColumn_putColumn (X : Batch) (l : Lane) (A : BitMatrix) :
    putColumn (putColumn X l A) l A = putColumn X l A := by
  simp [putColumn]

/-- A data-movement writer performed a second time finds its value already written, and only
answers. -/
theorem exec_write_again {i : Instr} {s t : State}
    (hi : i.opcode ∈ [Opcode.ldm, .ldp, .putl, .getl]) (h : exec i s = .next t) :
    exec i t = .next t.respondOk := by
  cases i with
  | ldm rd idx v =>
    cases h
    simp only [exec, execLdm]
    rw [setMatrix_of_getMatrix_eq (by simp)]
  | ldp rd idx lane v =>
    cases h
    simp only [exec, execLdp]
    rw [setBatch_of_getBatch_eq (by simp [writeLane_writeLane])]
  | putl rd lane rs1 =>
    cases h
    simp only [exec, execPutl]
    rw [setBatch_of_getBatch_eq (by simp [putColumn_putColumn])]
  | getl rd rs1 lane =>
    cases h
    simp only [exec, execGetl]
    rw [setMatrix_of_getMatrix_eq (by simp)]
  | add | adds | modp2 | reduce | trns | trna | stm | stp | rdcap => simp [Instr.opcode] at hi

/-- Settles O19: a read, and a write done again, only answers. -/
theorem readsAreSilentWritesIdempotent : Obligations.ReadsAreSilentWritesIdempotent := by
  constructor
  · intro i s t hi h
    obtain ⟨v, hv⟩ := exec_read hi s
    rw [hv] at h
    cases h
    exact (onlyAnswers_respond s .ok v).2
  · intro i s t u hi ht hu
    rw [exec_write_again hi ht] at hu
    cases hu
    exact (onlyAnswers_respond t .ok 0).2

end Sys2Proof.Machine

/-! Encoding (30_encoding.md R48 to R59): decoder and encoder undo each other, the legal words are
the rows of the opcode table, and which commands read the data operand. -/

namespace Sys2Proof

/-- Settles O1: a command's word passes its own mask test, and its fields spell the command. -/
theorem decodeOfEncode : Obligations.DecodeOfEncode := fun _ => decode_encode

/-- What a legal word spells is well formed: the `k` field has eight bits (30_encoding.md R50). -/
theorem Opcode.wellFormed_build (o : Opcode) (f : Fields) (d : Word) :
    (o.build f d).WellFormed := by
  cases o with
  | modp2 => exact decide_eq_true (Nat.le_of_lt_succ f.k.isLt)
  | _ => rfl

/-- The commands that use the data operand (30_encoding.md R51). -/
theorem Instr.usesData_iff (i : Instr) :
    i.usesData = true ↔ i.opcode ∈ [Opcode.adds, .reduce, .ldm, .ldp] := by
  cases i <;> simp [Instr.usesData, Instr.opcode]

/-- A command that uses the data operand takes all of it. -/
theorem Opcode.data_build {o : Opcode} {f : Fields} {d : Word}
    (h : (o.build f d).usesData = true) : (o.build f d).data = d := by
  cases o with
  | adds | reduce | ldm | ldp => rfl
  | add | modp2 | trns | trna | stm | stp | putl | getl | rdcap => cases h

/-- A command that does not use the data operand is spelt by the word alone. -/
theorem Opcode.build_data_irrelevant {o : Opcode} {f : Fields} {d : Word}
    (h : (o.build f d).usesData ≠ true) (d' : Word) : o.build f d' = o.build f d := by
  cases o with
  | adds | reduce | ldm | ldp => exact absurd rfl h
  | add | modp2 | trns | trna | stm | stp | putl | getl | rdcap => rfl

/-- Settles O2: the fields of the decoded command are the word's own, and they make up the word. -/
theorem encodeOfDecode : Obligations.EncodeOfDecode := by
  intro q i hd
  obtain ⟨o, hm, rfl⟩ := decode_eq_ok.1 hd
  obtain ⟨hop, hz⟩ := (cmd_match_iff o q.cmd).1 hm
  refine ⟨o.wellFormed_build _ _, ?_, Opcode.data_build⟩
  rw [encode, Opcode.fields_build o _ _ hop hz, Fields.toCmd_ofCmd]

theorem exists_decode_opcode_iff (q : Request) (o : Opcode) :
    (∃ i, decode q = .ok i ∧ i.opcode = o) ↔ q.cmd &&& o.format.mask = o.matchWord := by
  constructor
  · rintro ⟨i, hd, rfl⟩
    obtain ⟨o, hm, rfl⟩ := decode_eq_ok.1 hd
    rwa [Opcode.opcode_build]
  · intro hm
    exact ⟨_, decode_eq_ok.2 ⟨o, hm, rfl⟩, o.opcode_build _ _⟩

/-- Settles O3: the mask test is the decoder's only one, and it is a test of fields. -/
theorem legalWordsAreTheTable : Obligations.LegalWordsAreTheTable :=
  ⟨fun q o => ⟨exists_decode_opcode_iff q o, cmd_match_iff o q.cmd⟩, by decide⟩

/-- Settles O4: a match fixes the opcode field, and only a match is decoded. -/
theorem oneMeaningPerWord : Obligations.OneMeaningPerWord := by
  constructor
  · intro w o o' hm hm'
    have hop := ((cmd_match_iff o w).1 hm).1
    have hop' := ((cmd_match_iff o' w).1 hm').1
    exact Opcode.code_injective (hop.symm.trans hop')
  · intro w hnone d
    cases hd : decode ⟨w, d⟩ with
    | error e => exact ⟨e, rfl⟩
    | ok i =>
      obtain ⟨o, hm, _⟩ := decode_eq_ok.1 hd
      exact absurd hm (hnone o)

/-- Settles O5: the decoded command has the request's data operand or does not use it. -/
theorem dataOperandUse : Obligations.DataOperandUse := by
  intro q i hd
  obtain ⟨o, hm, rfl⟩ := decode_eq_ok.1 hd
  rw [← Instr.usesData_iff]
  exact ⟨Opcode.data_build, fun hu d =>
    decode_eq_ok.2 ⟨o, hm, (Opcode.build_data_irrelevant hu d).symm⟩⟩

/-- The word of a command's fields, with the command's data operand, decodes to it. -/
theorem decode_of_fields {i : Instr} {w : BitVec 32} (hi : i.WellFormed) (hw : i.fields.toCmd = w) :
    decode ⟨w, i.data⟩ = .ok i :=
  hw ▸ decode_encode hi

/-- Settles O6: each word is made up of the fields of its command. -/
theorem sampleWordsDecode : Obligations.SampleWordsDecode :=
  ⟨decode_of_fields (i := .add 0 1 2) rfl rfl, decode_of_fields (i := .adds 1 1 1) rfl rfl,
    decode_of_fields (i := .modp2 2 0 56) rfl rfl, decode_of_fields (i := .reduce 0 0 7) rfl rfl,
    decode_of_fields (i := .trns 1 0) rfl rfl, decode_of_fields (i := .trna 1 0) rfl rfl,
    decode_of_fields (i := .stm 1 63) rfl rfl, decode_of_fields (i := .stp 0 62 0) rfl rfl,
    fun v => decode_of_fields (i := .ldm 0 5 v) rfl
      (show (Instr.ldm 0 5 0).fields.toCmd = 0x10005000 by decide),
    fun v => decode_of_fields (i := .ldp 3 63 7 v) rfl
      (show (Instr.ldp 3 63 7 0).fields.toCmd = 0x12C3FE00 by decide),
    decode_of_fields (i := .putl 0 3 1) rfl rfl, decode_of_fields (i := .getl 2 0 3) rfl rfl,
    decode_of_fields (i := .rdcap) rfl rfl⟩

/-- No format uses bit 8 (30_encoding.md R52). -/
theorem getLsbD_eight_of_mustBeZero {fmt : Format} {cmd : BitVec 32}
    (h : fmt.mustBeZero (Fields.ofCmd cmd)) : cmd.getLsbD 8 = false := by
  have hz : (Fields.ofCmd cmd).z = 0 := by cases fmt <;> simp_all only [Format.mustBeZero]
  simpa [Fields.ofCmd] using congrArg (fun x => x.getLsbD 0) hz

/-- The numbers of the 13 opcodes (30_encoding.md R47). -/
theorem Opcode.code_mem (o : Opcode) : o.code ∈ ([0x01, 0x02, 0x03, 0x04, 0x08, 0x09, 0x10, 0x11,
    0x12, 0x13, 0x14, 0x15, 0x1F] : List (BitVec 8)) := by
  cases o <;> decide

theorem code_of_decode_ok {q : Request} {i : Instr} (hd : decode q = .ok i) :
    q.cmd.extractLsb' 24 8 = i.opcode.code := by
  obtain ⟨o, hm, rfl⟩ := decode_eq_ok.1 hd
  rw [Opcode.opcode_build]
  exact ((cmd_match_iff o q.cmd).1 hm).1

/-- The opcode numbers of the commands that read a word. -/
theorem Opcode.code_mem_of_read {o : Opcode} (h : o ∈ [Opcode.stm, .stp, .rdcap]) :
    o.code ∈ ([0x11, 0x13, 0x1F] : List (BitVec 8)) := by
  cases o with
  | stm | stp | rdcap => decide
  | add | adds | modp2 | reduce | trns | trna | ldm | ldp | putl | getl => simp at h

end Sys2Proof

/-! What a step answers (30_encoding.md R46, R53 to R58, R62): the status the order of checks gives,
`rdata` zero in every error and in every answer but a read's, and one response per request. -/

namespace Sys2Proof.Machine

/-- The one response given is the only one. -/
theorem Answers.unique {s t : State} {st st' : Status} {v v' : Word} (h : Answers s t st v)
    (h' : Answers s t st' v') : st = st' ∧ v = v' := by
  simpa using (h : t.responses = _).symm.trans h'

/-- A step on a request takes it from the port and has one command's effect. -/
theorem step_request_effect {s t : State} {q : Request} {rest : List Input}
    (h : s.inputs = .request q :: rest) (hstep : step s = .next t) :
    Effect { s with inputs := rest } t := by
  obtain ⟨hin, _⟩ | ⟨_, hin, _⟩ | ⟨_, _, hin, heff⟩ := step_effect hstep
  · cases h.symm.trans hin
  · cases h.symm.trans hin
  · cases h.symm.trans hin
    exact heff

/-- Settles O10: the status answered is `statusOf`, and an effect with an error status is the answer
alone. -/
theorem orderOfChecks : Obligations.OrderOfChecks := by
  intro s q rest h
  obtain ⟨t, v, hstep, hans⟩ := step_answers_statusOf h
  obtain ⟨st, w, hans', hrest, herr⟩ := effect_answers (step_request_effect h hstep)
  obtain ⟨rfl, rfl⟩ := hans'.unique hans
  refine ⟨t, w, hstep, hans, fun hne => ?_⟩
  obtain ⟨rfl, hbatch, hmatrix⟩ := herr hne
  exact ⟨hans, hbatch, hmatrix, hrest⟩

/-- A request that the order of checks finds illegal is answered `ERR_ILLEGAL`, and that is all. -/
theorem answersIllegal_of_statusOf {s : State} {q : Request} {rest : List Input}
    (h : s.inputs = .request q :: rest) (hst : statusOf s.hasAccel q.cmd = .errIllegal) :
    AnswersIllegal s rest := by
  obtain ⟨t, _, hstep, _, honly⟩ := orderOfChecks s q rest h
  rw [hst] at honly
  exact ⟨t, hstep, honly (by decide)⟩

/-- A word with the opcode of a row but a 1 where the row must be zero is found illegal. -/
theorem statusOf_of_not_mustBeZero {cmd : BitVec 32} {o : Opcode}
    (hop : cmd.extractLsb' 24 8 = o.code) (hz : ¬ o.format.mustBeZero (Fields.ofCmd cmd))
    (hasAccel : Bool) : statusOf hasAccel cmd = .errIllegal := by
  have hm : cmd &&& o.format.mask ≠ o.matchWord := fun hm => hz ((cmd_match_iff o cmd).1 hm).2
  rw [matchWord_eq_append] at hm
  simp only [statusOf, hop, Opcode.ofCode_code, if_pos hm, ite_self]

/-- Settles O12: bit 8 must be zero in every format. -/
theorem mustBeZeroBitIsIllegal : Obligations.MustBeZeroBitIsIllegal := by
  intro s q rest o h hop hbit
  refine answersIllegal_of_statusOf h (statusOf_of_not_mustBeZero hop ?_ _)
  rcases hbit with hz | h8
  · exact hz
  · intro hz
    rw [getLsbD_eight_of_mustBeZero hz] at h8
    cases h8

/-- Settles O13: step 1 or step 2 of the order of checks ends the command. -/
theorem undefinedOpcodeIsIllegal : Obligations.UndefinedOpcodeIsIllegal := by
  intro s q rest h hop
  refine answersIllegal_of_statusOf h ?_
  rcases hop with hnone | ⟨htrna, haccel⟩
  · cases ho : Opcode.ofCode (q.cmd.extractLsb' 24 8) with
    | none => simp only [statusOf, ho]
    | some o => exact absurd (Opcode.code_of_ofCode ho ▸ o.code_mem) hnone
  · have ho : Opcode.ofCode (q.cmd.extractLsb' 24 8) = some .trna :=
      htrna ▸ Opcode.ofCode_code .trna
    simp only [statusOf, ho, haccel, and_self, if_true]

/-- A command that reads no word answers `rdata` zero. -/
theorem exec_answers_zero {i : Instr} (hi : i.opcode ∉ [Opcode.stm, .stp, .rdcap]) (s : State) :
    ∃ t st, exec i s = .next t ∧ Answers s t st 0 := by
  cases i with
  | modp2 rd rs1 k =>
    by_cases hk : k ≤ 64
    · exact ⟨_, .ok, execModp2_of_le rd rs1 hk s, rfl⟩
    · exact ⟨_, .errParam, execModp2_of_gt rd rs1 (by omega) s, rfl⟩
  | trna rd rs1 =>
    cases ha : s.hasAccel with
    | false => exact ⟨_, .errIllegal, execTrna_of_not_accel rd rs1 ha, rfl⟩
    | true => exact ⟨_, .ok, execTrna_of_accel rd rs1 ha, rfl⟩
  | add | adds | reduce | trns | ldm | ldp | putl | getl => exact ⟨_, .ok, rfl, rfl⟩
  | stm | stp | rdcap => simp [Instr.opcode] at hi

/-- A request that is no read is answered with `rdata` zero. -/
theorem step_answers_zero {s : State} {q : Request} {rest : List Input}
    (h : s.inputs = .request q :: rest)
    (hop : q.cmd.extractLsb' 24 8 ∉ ([0x11, 0x13, 0x1F] : List (BitVec 8))) :
    ∃ t st, step s = .next t ∧ Answers s t st 0 := by
  cases hd : decode q with
  | error e => exact ⟨_, .errIllegal, step_of_error h hd, rfl⟩
  | ok i =>
    rw [code_of_decode_ok hd] at hop
    rw [step_of_ok h hd]
    exact exec_answers_zero (mt Opcode.code_mem_of_read hop) { s with inputs := rest }

/-- Settles O16: an error carries no word, and neither does the answer to a word that is no read. -/
theorem rdataZeroUnlessRead : Obligations.RdataZeroUnlessRead := by
  intro s t q rest st v h hstep hans hzero
  rcases hzero with hne | hop
  · obtain ⟨st', w, hans', _, herr⟩ := effect_answers (step_request_effect h hstep)
    obtain ⟨rfl, rfl⟩ := hans'.unique hans
    exact (herr hne).1
  · obtain ⟨u, st', hu, hans'⟩ := step_answers_zero h hop
    cases hstep.symm.trans hu
    exact (Answers.unique hans hans').2

/-- Settles O20: the one response a step can add carries a word only with `OK`. -/
theorem errorsCarryZeroKept : Obligations.ErrorsCarryZeroKept := by
  intro s t hs hstep
  obtain ⟨_, rfl⟩ | ⟨_, _, rfl⟩ | ⟨_, _, _, heff⟩ := step_effect hstep
  · exact hs
  · exact hs
  · obtain ⟨st, v, hans, _, herr⟩ := effect_answers heff
    unfold ErrorsCarryZero
    rw [hans, List.forall_mem_cons]
    exact ⟨fun hne => (herr hne).1, hs⟩

/-- Settles O21: no response stands in the list after reset. -/
theorem errorsCarryZeroAtReset : Obligations.ErrorsCarryZeroAtReset :=
  fun _ hr => absurd (State.reset_responses ▸ hr) List.not_mem_nil

theorem pendingRequests_of_reset {s : State} {rest : List Input} (h : s.inputs = .reset :: rest) :
    pendingRequests s = pendingRequests { s with inputs := rest } := by
  simp [pendingRequests, h]

theorem pendingRequests_of_request {s : State} {q : Request} {rest : List Input}
    (h : s.inputs = .request q :: rest) :
    pendingRequests s = pendingRequests { s with inputs := rest } + 1 := by
  simp [pendingRequests, h]

theorem pendingRequests_congr {s t : State} (h : t.inputs = s.inputs) :
    pendingRequests t = pendingRequests s := by
  simp only [pendingRequests, h]

/-- Settles O22: a request taken from the port is one response given, and nothing else moves
either list. -/
theorem oneResponsePerRequest : Obligations.OneResponsePerRequest := by
  intro s t hstep
  obtain ⟨_, rfl⟩ | ⟨rest, hin, rfl⟩ | ⟨q, rest, hin, heff⟩ := step_effect hstep
  · exact ⟨rfl, List.suffix_rfl⟩
  · exact ⟨congrArg _ (pendingRequests_of_reset hin).symm, List.suffix_rfl⟩
  · obtain ⟨st, v, hans, ⟨_, hport, _⟩, _⟩ := effect_answers heff
    rw [pendingRequests_of_request hin, pendingRequests_congr hport, hans, List.length_cons]
    exact ⟨by dsimp only; omega, List.suffix_cons _ _⟩

end Sys2Proof.Machine

/-! The pseudo-instructions of the assembler (30_encoding.md R60): the two extreme truncations, the
sum of integers and the transpose done twice. -/

namespace Sys2Proof.Machine

/-- Truncation to all 64 bits keeps every plane (40_arith.md R70). -/
@[simp] theorem truncate_sixtyFour (a : Batch) : truncate a 64 = a :=
  batch_ext fun i l p => by simp [planeBit_truncate]

/-- Truncation to no bit zeroes every plane (40_arith.md R70). -/
@[simp] theorem truncate_zero (a : Batch) : truncate a 0 = zeroBatch :=
  batch_ext fun i l p => by simp [planeBit_truncate, Nat.not_le.2 i.isLt]

/-- The integers of the scalar's planes are all the scalar (40_arith.md R67). -/
@[simp] theorem intWord_scalarPlanes (x : Word) (n : Fin 512) : intWord (scalarPlanes x) n = x :=
  word_ext fun b => by rw [getLsbD_intWord, intBit, planeBit_scalarPlanes, Fin.rev_rev]

/-- The ripple chain adds each pair of integers (40_arith.md R66). -/
theorem intWord_ripple (a b : Batch) (n : Fin 512) :
    intWord (ripple a b) n = intWord a n + intWord b n := by
  apply word_ext
  intro t
  have hstep : 63 - t.rev.val = t.val := by rw [Fin.val_rev]; omega
  rw [BitVec.getLsbD_add t.isLt, ← carryBit_eq_carry a b n t.val (by omega), getLsbD_intWord,
    getLsbD_intWord, getLsbD_intWord, intBit, planeBit_ripple]
  simp only [hstep, intBit, Bool.xor_assoc]

theorem intOf_ripple_scalarPlanes (a : Batch) (x : Word) (n : Fin 512) :
    intOf (ripple a (scalarPlanes x)) n = (intOf a n + x.toNat) % 2 ^ 64 := by
  simp only [intOf_eq_toNat, intWord_ripple, intWord_scalarPlanes, BitVec.toNat_add]

/-- The transpose is its own inverse (41_transpose.md R84). -/
@[simp] theorem transpose_transpose (A : BitMatrix) : transpose (transpose A) = A :=
  matrix_ext fun r b => by simp only [transpose_bit, Fin.rev_rev]

theorem exec_modp2_writesBatch (rd rs1 : BReg) {k : Nat} (hk : k ≤ 64) (s : State) :
    ∃ t, exec (.modp2 rd rs1 k) s = .next t ∧ WritesBatch s t rd (truncate (s.getBatch rs1) k) :=
  ⟨_, execModp2_of_le rd rs1 hk s, writesBatch_setBatch s rd _⟩

theorem exec_trns_writesMatrix (rd rs1 : MReg) (s : State) :
    ∃ t, exec (.trns rd rs1) s = .next t ∧ WritesMatrix s t rd (transpose (s.getMatrix rs1)) :=
  ⟨_, rfl, writesMatrix_setMatrix s rd _⟩

/-- `MOVB` copies: truncation to 64 bits keeps the batch. -/
theorem execAll_movb (s : State) (rd rs : BReg) :
    ∃ t, execAll (movb rd rs) s = .next t ∧ WritesBatch s t rd (s.getBatch rs) := by
  obtain ⟨t, ht, hw⟩ := exec_modp2_writesBatch rd rs (Nat.le_refl 64) s
  rw [truncate_sixtyFour] at hw
  exact ⟨t, execAll_cons ht [], hw⟩

/-- `CLRB` zeroes: truncation to no bit leaves none. -/
theorem execAll_clrb (s : State) (rd : BReg) :
    ∃ t, execAll (clrb rd) s = .next t ∧ WritesBatch s t rd zeroBatch := by
  obtain ⟨t, ht, hw⟩ := exec_modp2_writesBatch rd rd (Nat.zero_le 64) s
  rw [truncate_zero] at hw
  exact ⟨t, execAll_cons ht [], hw⟩

/-- `INCB` adds 1 to each integer: the scalar's planes hold 512 copies of 1. -/
theorem execAll_incb (s : State) (rd : BReg) :
    ∃ t, execAll (incb rd) s = .next t ∧
      ∀ n, intOf (t.getBatch rd) n = (intOf (s.getBatch rd) n + 1) % 2 ^ 64 := by
  refine ⟨_, rfl, fun n => ?_⟩
  rw [State.getBatch_respondOk, State.getBatch_setBatch]
  exact intOf_ripple_scalarPlanes (s.getBatch rd) 1 n

/-- `MOVM` copies: the second transpose undoes the first. -/
theorem execAll_movm (s : State) (rd rs : MReg) :
    ∃ t, execAll (movm rd rs) s = .next t ∧
      t.getMatrix rd = s.getMatrix rs ∧ SameMatricesBut rd s t ∧ SameBatches s t ∧
        SameRest s t := by
  obtain ⟨t, ht, hrd, _, hmat, hbatch, haccel, hin, hresets⟩ := exec_trns_writesMatrix rd rs s
  obtain ⟨u, hu, hrd', _, hmat', hbatch', haccel', hin', hresets'⟩ := exec_trns_writesMatrix rd rd t
  rw [hrd, transpose_transpose] at hrd'
  exact ⟨u, (execAll_cons ht _).trans (execAll_cons hu []), hrd',
    fun r hr => (hmat' r hr).trans (hmat r hr), fun r => (hbatch' r).trans (hbatch r),
    haccel'.trans haccel, hin'.trans hin, hresets'.trans hresets⟩

/-- Settles O58: the expansions are the definitions, and each does what it is for. -/
theorem pseudoInstructions : Obligations.PseudoInstructions :=
  ⟨fun s rd rs => ⟨rfl, execAll_movb s rd rs⟩, fun s rd => ⟨rfl, execAll_clrb s rd⟩,
    fun s rd => ⟨rfl, execAll_incb s rd⟩, fun s rd rs => ⟨rfl, execAll_movm s rd rs⟩⟩

end Sys2Proof.Machine

/-! The arithmetic engine (40_arith.md): the integers of its three batch functions, the laws they
satisfy, and what its four commands write. -/

namespace Sys2Proof.Machine

/-- Settles O27: sum and carry at one bit are the full adder's, whose truth table has eight rows. -/
theorem fullAdderAtEachBit : Obligations.FullAdderAtEachBit := by
  intro x y z l p bit
  have hsum : bit (fullAdder x y z).1 = (bit x ^^ bit y ^^ bit z) := fullAdder_sum_bit x y z l p
  have hcarry : bit (fullAdder x y z).2 = (bit x && bit y || bit z && (bit x ^^ bit y)) :=
    fullAdder_carry_bit x y z l p
  refine ⟨rfl, rfl, ?_, ?_⟩
  · rw [hsum, hcarry]
    cases bit x <;> cases bit y <;> cases bit z <;> rfl
  · rw [hcarry]
    cases bit x <;> cases bit y <;> cases bit z <;> rfl

theorem intOf_ripple (a b : Batch) (n : Fin 512) :
    intOf (ripple a b) n = (intOf a n + intOf b n) % 2 ^ 64 := by
  simp only [intOf_eq_toNat, intWord_ripple, BitVec.toNat_add]

/-- Settles O29: the ripple chain adds the integers as words. -/
theorem rippleIsAddition : Obligations.RippleIsAddition := intOf_ripple

theorem intOf_scalarPlanes (x : Word) (n : Fin 512) : intOf (scalarPlanes x) n = x.toNat := by
  rw [intOf_eq_toNat, intWord_scalarPlanes]

/-- `SPLANES` plane by plane (40_arith.md R67). -/
theorem getElem_scalarPlanes (x : Word) (i : Index) :
    (scalarPlanes x)[i] = bcast (x.getLsbD (63 - i.val)) := by
  have hrev : i.rev.val = 63 - i.val := by rw [Fin.val_rev]; omega
  simp only [scalarPlanes, Fin.getElem_fin, Vector.getElem_ofFn, Fin.eta, hrev]

/-- Adding a scalar is adding a register that holds the scalar's planes (40_arith.md R69). -/
theorem exec_adds_eq_exec_add {s : State} {rt : BReg} {x : Word}
    (h : s.getBatch rt = scalarPlanes x) (rd rs1 : BReg) :
    exec (.adds rd rs1 x) s = exec (.add rd rs1 rt) s := by
  simp only [exec, execAdds, execAdd, h]

/-- Settles O30: the planes are the broadcasts of the scalar's bits, so each integer is the
scalar. -/
theorem scalarAdditionIsAddition : Obligations.ScalarAdditionIsAddition :=
  ⟨getElem_scalarPlanes, intOf_scalarPlanes, intOf_ripple_scalarPlanes,
    fun _ rd rs1 _ _ h => exec_adds_eq_exec_add h rd rs1⟩

/-- Truncation to `k` bits keeps the `k` low bits of each integer (40_arith.md R70). -/
theorem intBit_truncate (a : Batch) {k : Nat} (hk : k ≤ 64) (n : Fin 512) (b : Fin 64) :
    intBit (truncate a k) n b = (decide (b.val < k) && intBit a n b) := by
  have hplane : 64 - k ≤ b.rev.val ↔ b.val < k := by rw [Fin.val_rev]; omega
  simp only [intBit, planeBit_truncate, hplane]

/-- Truncation is reduction modulo a power of two: bit by bit, both drop the bits from `k` on
(40_arith.md R73). -/
theorem intOf_truncate (a : Batch) {k : Nat} (hk : k ≤ 64) (n : Fin 512) :
    intOf (truncate a k) n = intOf a n % 2 ^ k := by
  rw [intOf_eq_toNat, intOf_eq_toNat]
  apply Nat.eq_of_testBit_eq
  intro b
  rw [Nat.testBit_mod_two_pow, BitVec.testBit_toNat, BitVec.testBit_toNat]
  by_cases hb : b < 64
  · rw [getLsbD_intWord _ n ⟨b, hb⟩, getLsbD_intWord _ n ⟨b, hb⟩, intBit_truncate a hk]
  · rw [BitVec.getLsbD_of_ge _ b (by omega), BitVec.getLsbD_of_ge _ b (by omega), Bool.and_false]

/-- The integers of what `REDUCE` writes: the sum modulo 2^64 has the same residue modulo 2^56
(40_arith.md R73). -/
theorem intOf_truncate_ripple_scalarPlanes (h : Batch) (x : Word) (n : Fin 512) :
    intOf (truncate (ripple h (scalarPlanes x)) 56) n = (intOf h n + x.toNat) % 2 ^ 56 := by
  rw [intOf_truncate _ (by omega), intOf_ripple_scalarPlanes,
    Nat.mod_mod_of_dvd _ (Nat.pow_dvd_pow 2 (by omega))]

theorem getElem_truncate_of_lt {a : Batch} {k : Nat} {i : Index} (h : i.val < 64 - k) :
    (truncate a k)[i] = zeroPlane := by
  rw [getElem_truncate, if_pos h]

theorem getElem_truncate_of_le {a : Batch} {k : Nat} {i : Index} (h : 64 - k ≤ i.val) :
    (truncate a k)[i] = a[i] := by
  rw [getElem_truncate, if_neg (by omega)]

/-- Settles O31: the bound is that of a remainder, and the planes are those below 64 − 56. -/
theorem truncationIsModulo : Obligations.TruncationIsModulo := by
  refine ⟨fun a k n hk => intOf_truncate a hk n, intOf_truncate_ripple_scalarPlanes,
    fun h x n => ?_, fun h x i hi => getElem_truncate_of_lt hi⟩
  rw [intOf_truncate_ripple_scalarPlanes]
  exact Nat.mod_lt _ (by decide)

/-- A row of the opcode table: the words that match the row are its command, read from its fields
and the data operand (30_encoding.md R52). -/
theorem encodes_build (o : Opcode) :
    Encodes o.format.mask o.matchWord fun q => o.build (Fields.ofCmd q.cmd) q.data := fun q =>
  ⟨fun hm => decode_eq_ok.2 ⟨o, hm, rfl⟩,
    fun hd => (exists_decode_opcode_iff q o).1 ⟨_, hd, o.opcode_build _ _⟩⟩

theorem exec_add_writesBatch (rd rs1 rs2 : BReg) (s : State) :
    ∃ t, exec (.add rd rs1 rs2) s = .next t ∧
      WritesBatch s t rd (ripple (s.getBatch rs1) (s.getBatch rs2)) :=
  ⟨_, rfl, writesBatch_setBatch s rd _⟩

theorem exec_adds_writesBatch (rd rs1 : BReg) (x : Word) (s : State) :
    ∃ t, exec (.adds rd rs1 x) s = .next t ∧
      WritesBatch s t rd (ripple (s.getBatch rs1) (scalarPlanes x)) :=
  ⟨_, rfl, writesBatch_setBatch s rd _⟩

theorem exec_reduce_writesBatch (rd rs1 : BReg) (x : Word) (s : State) :
    ∃ t, exec (.reduce rd rs1 x) s = .next t ∧
      WritesBatch s t rd (truncate (ripple (s.getBatch rs1) (scalarPlanes x)) 56) :=
  ⟨_, rfl, writesBatch_setBatch s rd _⟩

theorem exec_modp2_onlyAnswers (rd rs1 : BReg) {k : Nat} (hk : 64 < k) (s : State) :
    ∃ t, exec (.modp2 rd rs1 k) s = .next t ∧ OnlyAnswers s t .errParam 0 :=
  ⟨_, execModp2_of_gt rd rs1 hk s, onlyAnswers_respond s .errParam 0⟩

theorem WritesBatch.getBatch_eq {s t : State} {rd : BReg} {X : Batch} (h : WritesBatch s t rd X) :
    t.getBatch rd = X :=
  h.1

/-- Settles O32: `ADD` is its row of the table and writes the chain's result. -/
theorem addResult : Obligations.AddResult := by
  refine ⟨encodes_build .add, fun s rd rs1 rs2 => ?_⟩
  obtain ⟨t, ht, hw⟩ := exec_add_writesBatch rd rs1 rs2 s
  refine ⟨t, ht, hw, fun n => ?_⟩
  rw [hw.getBatch_eq, intOf_ripple]

/-- Settles O33: `ADDS` is its row of the table and writes the chain's result with the scalar's
planes. -/
theorem addsResult : Obligations.AddsResult := by
  refine ⟨encodes_build .adds, fun s rd rs1 x => ?_⟩
  obtain ⟨t, ht, hw⟩ := exec_adds_writesBatch rd rs1 x s
  refine ⟨t, ht, hw, fun n => ?_⟩
  rw [hw.getBatch_eq, intOf_ripple_scalarPlanes]

/-- Settles O34: with `k` in range `MODP2` writes the truncation, and otherwise it only answers. -/
theorem modp2Result : Obligations.Modp2Result := by
  refine ⟨encodes_build .modp2, fun s rd rs1 k hk => ?_,
    fun s rd rs1 k hk => exec_modp2_onlyAnswers rd rs1 hk s⟩
  obtain ⟨t, ht, hw⟩ := exec_modp2_writesBatch rd rs1 hk s
  refine ⟨t, ht, hw, ?_⟩
  rw [hw.getBatch_eq]
  exact ⟨fun i hi => getElem_truncate_of_lt hi, fun i hi => getElem_truncate_of_le hi,
    intOf_truncate _ hk⟩

/-- Writing a register twice leaves what writing it once with the last value leaves. -/
theorem same_of_writesBatch_twice {s t v u : State} {rd : BReg} {X Y : Batch}
    (ht : WritesBatch s t rd X) (hv : WritesBatch s v rd Y) (hu : WritesBatch v u rd X) :
    SameBatches t u ∧ SameMatrices t u ∧ SameRest t u := by
  obtain ⟨trd, _, tbatch, tmatrix, taccel, tinputs, tresets⟩ := ht
  obtain ⟨_, _, vbatch, vmatrix, vaccel, vinputs, vresets⟩ := hv
  obtain ⟨urd, _, ubatch, umatrix, uaccel, uinputs, uresets⟩ := hu
  refine ⟨fun r => ?_, fun r => ?_, ?_, ?_, ?_⟩
  · by_cases hr : r = rd
    · rw [hr, urd, trd]
    · rw [ubatch r hr, vbatch r hr, tbatch r hr]
  · rw [umatrix, vmatrix, tmatrix]
  · rw [uaccel, vaccel, taccel]
  · rw [uinputs, vinputs, tinputs]
  · rw [uresets, vresets, tresets]

/-- `REDUCE` leaves what `ADDS` followed by `MODP2` with 56 leaves (40_arith.md R72). -/
theorem execAll_adds_modp2_same {s t : State} {rd rs1 : BReg} {x : Word}
    (ht : WritesBatch s t rd (truncate (ripple (s.getBatch rs1) (scalarPlanes x)) 56)) :
    ∃ u, execAll [.adds rd rs1 x, .modp2 rd rd 56] s = .next u ∧
      SameBatches t u ∧ SameMatrices t u ∧ SameRest t u := by
  obtain ⟨v, hv, hwv⟩ := exec_adds_writesBatch rd rs1 x s
  obtain ⟨u, hu, hwu⟩ := exec_modp2_writesBatch rd rd (show 56 ≤ 64 by omega) v
  rw [hwv.getBatch_eq] at hwu
  exact ⟨u, (execAll_cons hv _).trans (execAll_cons hu []), same_of_writesBatch_twice ht hwv hwu⟩

/-- Settles O36: `REDUCE` is its row of the table and writes the truncated sum. -/
theorem reduceResult : Obligations.ReduceResult := by
  refine ⟨encodes_build .reduce, fun s rd rs1 x => ?_⟩
  obtain ⟨t, ht, hw⟩ := exec_reduce_writesBatch rd rs1 x s
  refine ⟨t, ht, hw, fun i hi => ?_, fun n => ?_, execAll_adds_modp2_same hw⟩
  · rw [hw.getBatch_eq]
    exact getElem_truncate_of_lt hi
  · rw [hw.getBatch_eq, intOf_truncate_ripple_scalarPlanes]

theorem ripple_comm (a b : Batch) : ripple a b = ripple b a :=
  batch_ext_intWord fun n => by rw [intWord_ripple, intWord_ripple, BitVec.add_comm]

theorem ripple_scalarPlanes_zero (a : Batch) : ripple a (scalarPlanes 0) = a :=
  batch_ext_intWord fun n => by
    rw [intWord_ripple, intWord_scalarPlanes]
    exact BitVec.add_zero _

/-- A plane that the smaller exponent keeps is one that the larger exponent keeps. -/
theorem truncate_truncate (a : Batch) {k1 k2 : Nat} (h : k1 ≤ k2) :
    truncate (truncate a k2) k1 = truncate a k1 := by
  apply batch_ext
  intro i l p
  simp only [planeBit_truncate]
  by_cases hi : 64 - k1 ≤ i.val
  · have hi2 : 64 - k2 ≤ i.val := by omega
    simp only [hi, hi2, decide_true, Bool.true_and]
  · simp only [hi, decide_false, Bool.false_and]

/-- Settles O37: two laws of addition of integers, three of planes kept, and `MODP2` out of
range. -/
theorem arithmeticLaws : Obligations.ArithmeticLaws := by
  refine ⟨ripple_comm, ripple_scalarPlanes_zero, fun a k1 k2 h _ => truncate_truncate a h,
    truncate_sixtyFour, truncate_zero, fun s rd rs1 k hk => ?_⟩
  obtain ⟨t, ht, hans, _⟩ := exec_modp2_onlyAnswers rd rs1 hk s
  exact ⟨t, ht, hans⟩

/-- A command that writes a batch register leaves there what it writes. -/
theorem getBatch_of_exec {i : Instr} {s t : State} {rd : BReg} {X : Batch}
    (hw : ∃ u, exec i s = .next u ∧ WritesBatch s u rd X) (h : exec i s = .next t) :
    t.getBatch rd = X := by
  obtain ⟨u, hu, hwu⟩ := hw
  cases h.symm.trans hu
  exact hwu.getBatch_eq

/-- Settles O38: the batch a command writes does not depend on the register it is written to. -/
theorem inPlaceAgreesWithFunctional : Obligations.InPlaceAgreesWithFunctional := by
  rintro s t u rd rs1 rs2 x k hk (⟨ht, hu⟩ | ⟨ht, hu⟩ | ⟨ht, hu⟩ | ⟨ht, hu⟩)
  · rw [getBatch_of_exec (exec_add_writesBatch rs1 rs1 rs2 s) ht,
      getBatch_of_exec (exec_add_writesBatch rd rs1 rs2 s) hu]
  · rw [getBatch_of_exec (exec_adds_writesBatch rs1 rs1 x s) ht,
      getBatch_of_exec (exec_adds_writesBatch rd rs1 x s) hu]
  · rw [getBatch_of_exec (exec_modp2_writesBatch rs1 rs1 hk s) ht,
      getBatch_of_exec (exec_modp2_writesBatch rd rs1 hk s) hu]
  · rw [getBatch_of_exec (exec_reduce_writesBatch rs1 rs1 x s) ht,
      getBatch_of_exec (exec_reduce_writesBatch rd rs1 x s) hu]

/-- One `REDUCE` in place, integer by integer. -/
theorem exec_reduce_intOf (rd : BReg) (x : Word) (s : State) :
    ∃ t, exec (.reduce rd rd x) s = .next t ∧
      ∀ n, intOf (t.getBatch rd) n = (intOf (s.getBatch rd) n + x.toNat) % 2 ^ 56 := by
  obtain ⟨t, ht, hw⟩ := exec_reduce_writesBatch rd rd x s
  refine ⟨t, ht, fun n => ?_⟩
  rw [hw.getBatch_eq, intOf_truncate_ripple_scalarPlanes]

/-- Settles O39, by induction on the indices: each further `REDUCE` adds its index to a remainder
modulo 2^56. -/
theorem repeatedReduction : Obligations.RepeatedReduction := by
  intro xs s rd hne
  induction xs generalizing s with
  | nil => exact absurd rfl hne
  | cons x xs ih =>
    obtain ⟨t, ht, hint⟩ := exec_reduce_intOf rd x s
    by_cases hxs : xs = []
    · subst hxs
      exact ⟨t, execAll_cons ht [], by simpa using hint⟩
    · obtain ⟨u, hu, hsum⟩ := ih t hxs
      refine ⟨u, (execAll_cons ht _).trans hu, fun n => ?_⟩
      rw [hsum, hint, Nat.mod_add_mod, Nat.add_assoc, List.map_cons, List.sum_cons]

end Sys2Proof.Machine

/-! The function `T` of the transpose engine (41_transpose.md R82 to R84): where it takes each bit
from, the properties the source requires of it, and `TRNS`. -/

namespace Sys2Proof.Machine

/-- `T` as 41_transpose.md R82 writes it, from the source's bit to the result's. -/
theorem transpose_bit_sub (A : BitMatrix) (k j : Index) :
    (transpose A)[63 - j.val].getLsbD (63 - k.val) = A[k].getLsbD j.val := by
  have h := transpose_bit A j.rev k.rev
  simpa [Fin.val_rev] using h

/-- With column `c` of a word its bit `63 − c`, `T` is the matrix transpose (41_transpose.md R83). -/
theorem transpose_entry (A : BitMatrix) (r k : Index) :
    (transpose A)[r].getLsbD (63 - k.val) = A[k].getLsbD (63 - r.val) := by
  have h := transpose_bit A r k.rev
  simpa [Fin.val_rev] using h

/-- Settles O44: both parts are `T` at one entry. -/
theorem transposeSwapsEntries : Obligations.TransposeSwapsEntries :=
  ⟨transpose_entry, fun A r => transpose_entry A r r⟩

theorem transpose_zeroMatrix : transpose zeroMatrix = zeroMatrix :=
  matrix_ext fun r b => by
    rw [transpose_bit]
    simp [zeroMatrix]

theorem transpose_bijective : Function.Bijective transpose :=
  Function.Involutive.bijective transpose_transpose

/-- Where `T` takes each of the 4096 bits from: a permutation of their positions, the same for every
matrix (41_transpose.md R84). -/
def transposePositions : Equiv.Perm (Index × Fin 64) :=
  (Equiv.prodComm _ _).trans (Fin.revPerm.prodCongr Fin.revPerm)

theorem transpose_bit_positions (A : BitMatrix) (p : Index × Fin 64) :
    (transpose A)[p.1].getLsbD p.2.val =
      A[(transposePositions p).1].getLsbD (transposePositions p).2.val :=
  transpose_bit A p.1 p.2

/-- `T` is linear over GF(2) (41_transpose.md R84). -/
theorem transpose_xor (A B : BitMatrix) : transpose (Vector.ofFn fun i => A[i] ^^^ B[i]) =
    Vector.ofFn fun i => (transpose A)[i] ^^^ (transpose B)[i] :=
  matrix_ext fun r b => by
    rw [transpose_bit]
    simp only [Fin.getElem_fin, Vector.getElem_ofFn, BitVec.getLsbD_xor]
    exact congrArg₂ xor (transpose_bit A r b).symm (transpose_bit B r b).symm

theorem getLsbD_ite_zero (c : Prop) [Decidable c] (w : Word) (b : Nat) :
    (if c then w else 0).getLsbD b = (decide c && w.getLsbD b) := by
  by_cases hc : c
  · rw [if_pos hc, decide_eq_true hc, Bool.true_and]
  · rw [if_neg hc, decide_eq_false hc, Bool.false_and]
    exact BitVec.getLsbD_zero

/-- Scenario 4 of the source (41_transpose.md R84, 95_test_vectors.md V4): bit positions 4 and up of
rows 0 and 1 become rows 0 to 59, bit positions 62 and 63. -/
theorem transpose_scenarioFour {A : BitMatrix}
    (hA : ∀ i : Index, A[i] = if i.val < 2 then 0xFFFFFFFFFFFFFFF0 else 0) (r : Index) :
    (transpose A)[r] = if r.val < 60 then 0xC000000000000000 else 0 := by
  have hsource : ∀ b : Fin 64, (0xFFFFFFFFFFFFFFF0 : Word).getLsbD b.val = decide (4 ≤ b.val) := by
    decide
  have hresult : ∀ b : Fin 64, (0xC000000000000000 : Word).getLsbD b.val = decide (62 ≤ b.val) := by
    decide
  apply word_ext
  intro b
  have hrow : b.rev.val < 2 ↔ 62 ≤ b.val := by rw [Fin.val_rev]; omega
  have hcol : 4 ≤ r.rev.val ↔ r.val < 60 := by rw [Fin.val_rev]; omega
  rw [transpose_bit, hA, getLsbD_ite_zero, getLsbD_ite_zero, hsource, hresult,
    decide_eq_decide.2 hrow, decide_eq_decide.2 hcol, Bool.and_comm]

/-- Settles O43: the permutation is `transposePositions`; the rest is `T` bit by bit. -/
theorem transposeProperties : Obligations.TransposeProperties :=
  ⟨transpose_zeroMatrix, transpose_transpose, transpose_bijective,
    ⟨transposePositions, transpose_bit_positions⟩, transpose_xor,
    fun _ hA => transpose_scenarioFour hA⟩

theorem WritesMatrix.getMatrix_eq {s t : State} {rd : MReg} {A : BitMatrix}
    (h : WritesMatrix s t rd A) : t.getMatrix rd = A :=
  h.1

theorem WritesMatrix.bit_of_transpose {s t : State} {rd : MReg} {A : BitMatrix}
    (h : WritesMatrix s t rd (transpose A)) (k j : Index) :
    (t.getMatrix rd)[63 - j.val].getLsbD (63 - k.val) = A[k].getLsbD j.val := by
  rw [h.getMatrix_eq, transpose_bit_sub]

/-- Settles O41: `TRNS` is its row of the table and writes `T`. -/
theorem trnsResult : Obligations.TrnsResult := by
  refine ⟨encodes_build .trns, fun s rd rs1 => ?_⟩
  obtain ⟨t, ht, hw⟩ := exec_trns_writesMatrix rd rs1 s
  exact ⟨t, ht, hw, hw.bit_of_transpose⟩

end Sys2Proof.Machine

/-! The accelerated datapath (41_transpose.md R88 to R94): stage 2 as the byte-affine instruction,
the three stages together, and `TRNA`. -/

namespace Sys2Proof.Machine

/-- Keeping one bit of a byte, the parity is that bit. -/
theorem parity_and_twoPow (x : Byte) (j : Fin 8) :
    parity (x &&& BitVec.twoPow 8 j.val) = x.getLsbD j.val := by
  have hone : ∀ j : Fin 8, parity (BitVec.twoPow 8 j.val) = true := by decide
  rw [BitVec.and_twoPow]
  cases h : x.getLsbD j.val
  · rw [if_neg Bool.false_ne_true]
    rfl
  · rw [if_pos rfl, hone]

/-- Byte `j` of the constant of stage 2 has bit `j` and no other. -/
theorem byteOf_stageTwoConstant :
    ∀ j : Fin 8, byteOf stageTwoConstant j = BitVec.twoPow 8 j.val := by
  decide

theorem byteAffine_stageTwoConstant (q : Word) :
    byteAffine q stageTwoConstant = blockTranspose q := by
  simp only [byteAffine, blockTranspose, byteOf_stageTwoConstant, parity_and_twoPow]

/-- Settles O47: each byte of the constant picks one bit of the other operand's byte. -/
theorem blockTransposeIsByteAffine : Obligations.BlockTransposeIsByteAffine := by
  refine fun q => ⟨(byteAffine_stageTwoConstant q).symm, fun i j => ?_⟩
  have hrev : (⟨7 - i.val, by omega⟩ : Fin 8) = i.rev := Fin.ext (by simp [Fin.val_rev])
  rw [hrev, getLsbD_byteOf, getLsbD_byteOf, blockTranspose_bit]

theorem getElem_blockTransposeStage (P : Vector VectorWord 8) (v g : Fin 8) :
    (blockTransposeStage P)[v][g] = blockTranspose P[v][g] := by
  simp [blockTransposeStage]

/-- The three stages bit by bit, rows in groups of eight and bit positions in bytes
(41_transpose.md R92). -/
theorem transposeAccel_bit (A : BitMatrix) (g i b t : Fin 8) :
    (transposeAccel A)[8 * g.val + i.val].getLsbD (8 * b.val + t.val) =
      A[8 * b.rev.val + t.rev.val].getLsbD (8 * (7 - g.val) + i.rev.val) := by
  rw [transposeAccel, reassemble_bit, getElem_blockTransposeStage, blockTranspose_bit,
    byteGather_bit]

theorem transposeAccel_eq_transpose (A : BitMatrix) : transposeAccel A = transpose A := by
  apply matrix_ext
  intro r p
  have h := transposeAccel_bit A ⟨r.val / 8, by omega⟩ ⟨r.val % 8, by omega⟩
    ⟨p.val / 8, by omega⟩ ⟨p.val % 8, by omega⟩
  have hsplit (n : Nat) : 8 * (n / 8) + n % 8 = n := by omega
  have hsplitRev (n : Fin 64) : 8 * (7 - n.val / 8) + (7 - n.val % 8) = n.rev.val := by
    rw [Fin.val_rev]
    omega
  rw [transpose_bit]
  simpa [Fin.val_rev, hsplit, hsplitRev] using h

/-- Settles O46: both sides take each bit from the same place. -/
theorem acceleratedDatapathIsTranspose : Obligations.AcceleratedDatapathIsTranspose :=
  transposeAccel_eq_transpose

/-- Settles O42: `TRNA` is its row of the table, and with the datapath it is `TRNS`. -/
theorem trnaResult : Obligations.TrnaResult := by
  refine ⟨encodes_build .trna, fun s rd rs1 haccel => ?_, fun s rd rs1 haccel => ?_⟩
  · obtain ⟨t, ht, hw⟩ := exec_trns_writesMatrix rd rs1 s
    have hsame : exec (.trna rd rs1) s = exec (.trns rd rs1) s := execTrna_of_accel rd rs1 haccel
    rw [transposeAccel_eq_transpose]
    exact ⟨t, hsame.trans ht, ht, hw, hw.bit_of_transpose⟩
  · exact ⟨_, execTrna_of_not_accel rd rs1 haccel, onlyAnswers_respond s .errIllegal 0⟩

end Sys2Proof.Machine

/-! The block interface (41_transpose.md R95, R98): the integers of a lane are the rows of its
transposed column, so a transposed block put into a lane is 64 integers, and back. -/

namespace Sys2Proof.Machine

theorem exec_putl_writesBatch (rd : BReg) (l : Lane) (rs1 : MReg) (s : State) :
    ∃ t, exec (.putl rd l rs1) s = .next t ∧
      WritesBatch s t rd (putColumn (s.getBatch rd) l (s.getMatrix rs1)) :=
  ⟨_, rfl, writesBatch_setBatch s rd _⟩

theorem exec_getl_writesMatrix (rd : MReg) (rs1 : BReg) (l : Lane) (s : State) :
    ∃ t, exec (.getl rd rs1 l) s = .next t ∧
      WritesMatrix s t rd (getColumn (s.getBatch rs1) l) :=
  ⟨_, rfl, writesMatrix_setMatrix s rd _⟩

@[simp] theorem getColumn_putColumn (X : Batch) (l : Lane) (A : BitMatrix) :
    getColumn (putColumn X l A) l = A :=
  Vector.ext fun i hi => by
    have h := getElem_getColumn (putColumn X l A) l ⟨i, hi⟩
    rwa [getElem_putColumn, if_pos rfl] at h

/-- The number, in the batch, of integer `k` of the block in lane `l` (41_transpose.md R95). -/
def blockInteger (l : Lane) (k : Index) : Fin 512 := ⟨64 * l.val + (63 - k.val), by omega⟩

/-- The integers of a lane are the rows of its transposed column (41_transpose.md R95). -/
theorem intOf_blockInteger (X : Batch) (l : Lane) (k : Index) :
    intOf X (blockInteger l k) = (transpose (getColumn X l))[k].toNat := by
  rw [intOf_eq_toNat]
  refine congrArg _ (word_ext fun b => ?_)
  have hlane : (64 * l.val + (63 - k.val)) / 64 = l.val := by omega
  have hbit : (64 * l.val + (63 - k.val)) % 64 = k.rev.val := by rw [Fin.val_rev]; omega
  rw [getLsbD_intWord, transpose_bit, getElem_getColumn]
  simp only [intBit, planeBit, blockInteger, hlane, hbit, Fin.eta]

/-- Settles O55: the column put into the lane is the transposed block, and transposed once more it
is the block. -/
theorem blockBecomesIntegers : Obligations.BlockBecomesIntegers := by
  intro s b l ms md
  obtain ⟨t, ht, hwt⟩ := exec_trns_writesMatrix md ms s
  obtain ⟨u, hu, hwu⟩ := exec_putl_writesBatch b l md t
  refine ⟨t, u, ht, fun r k => ?_, hu, fun k => ?_⟩
  · rw [hwt.getMatrix_eq, transpose_entry]
  · rw [← blockInteger, intOf_blockInteger, hwu.getBatch_eq, getColumn_putColumn, hwt.getMatrix_eq,
      transpose_transpose]

/-- A command that does `f` to each integer of a batch register does it, between two transposes, to
each word of a block (41_transpose.md R98). -/
theorem execAll_transpose_compute_transpose {b : BReg} {i : Instr} {f : Nat → Nat}
    (hi : ∀ s, ∃ t, exec i s = .next t ∧
      ∀ n, intOf (t.getBatch b) n = f (intOf (s.getBatch b) n))
    (s : State) (m : MReg) (l : Lane) :
    ∃ t, execAll [.trns m m, .putl b l m, i, .getl m b l, .trns m m] s = .next t ∧
      ∀ k : Index, (t.getMatrix m)[k].toNat = f (s.getMatrix m)[k].toNat := by
  obtain ⟨s1, h1, hw1⟩ := exec_trns_writesMatrix m m s
  obtain ⟨s2, h2, hw2⟩ := exec_putl_writesBatch b l m s1
  obtain ⟨s3, h3, hint⟩ := hi s2
  obtain ⟨s4, h4, hw4⟩ := exec_getl_writesMatrix m b l s3
  obtain ⟨t, ht, hwt⟩ := exec_trns_writesMatrix m m s4
  refine ⟨t, ?_, fun k => ?_⟩
  · rw [execAll_cons h1, execAll_cons h2, execAll_cons h3, execAll_cons h4, execAll_cons ht]
    rfl
  · rw [hwt.getMatrix_eq, hw4.getMatrix_eq, ← intOf_blockInteger, hint, intOf_blockInteger,
      hw2.getBatch_eq, getColumn_putColumn, hw1.getMatrix_eq, transpose_transpose]

/-- One `ADDS` in place, integer by integer. -/
theorem exec_adds_intOf (rd : BReg) (x : Word) (s : State) :
    ∃ t, exec (.adds rd rd x) s = .next t ∧
      ∀ n, intOf (t.getBatch rd) n = (intOf (s.getBatch rd) n + x.toNat) % 2 ^ 64 := by
  obtain ⟨t, ht, hw⟩ := exec_adds_writesBatch rd rd x s
  refine ⟨t, ht, fun n => ?_⟩
  rw [hw.getBatch_eq, intOf_ripple_scalarPlanes]

/-- Settles O56: `ADDS` and `REDUCE` add to each integer, modulo 2^64 and modulo 2^56. -/
theorem transposeComputeTransposeBack : Obligations.TransposeComputeTransposeBack :=
  fun s b m l x =>
    ⟨execAll_transpose_compute_transpose (f := fun y => (y + x.toNat) % 2 ^ 64)
        (exec_adds_intOf b x) s m l,
      execAll_transpose_compute_transpose (f := fun y => (y + x.toNat) % 2 ^ 56)
        (exec_reduce_intOf b x) s m l⟩

end Sys2Proof.Machine

/-! The scalar algorithm (41_transpose.md R85 to R87). A round with block size `2 ^ t` takes each bit
from the place whose word and bit position have their bits number `t` exchanged and complemented; the
rounds act on different bits, and all six together give `T`. -/

namespace Sys2Proof.Machine

/-- An index is its six bits. -/
theorem index_ext {w b : Index} (h : ∀ s < 6, w.val.testBit s = b.val.testBit s) : w = b := by
  refine Fin.ext (Nat.eq_of_testBit_eq fun s => ?_)
  by_cases hs : s < 6
  · exact h s hs
  · have hpow : 2 ^ 6 ≤ 2 ^ s := Nat.pow_le_pow_right (by omega) (by omega)
    rw [Nat.testBit_lt_two_pow (by omega), Nat.testBit_lt_two_pow (by omega)]

/-- Bit `b` of word `w` of a matrix (10_state.md R18). -/
def matrixBit (A : BitMatrix) (w b : Index) : Bool := A[w].getLsbD b.val

/-- The mask selects the bit positions whose own bit `t` is 0 (41_transpose.md R86). -/
def SelectsClear (m : Word) (t : Nat) : Prop := ∀ p : Fin 64, m.getLsbD p.val = !p.val.testBit t

/-- The index with the bits of `w`, but from bit `lo` up to bit `hi` the complements of the bits of
`b`: where rounds of the scalar algorithm fetch a bit from (41_transpose.md R87). -/
def crossBits (lo hi : Nat) (w b : Index) : Index :=
  (BitVec.ofFnLE fun s : Fin 6 =>
    if lo ≤ s.val ∧ s.val < hi then !b.val.testBit s.val else w.val.testBit s.val).toFin

theorem testBit_crossBits (lo hi : Nat) (w b : Index) {s : Nat} (hs : s < 6) :
    (crossBits lo hi w b).val.testBit s =
      if lo ≤ s ∧ s < hi then !b.val.testBit s else w.val.testBit s :=
  (BitVec.testBit_toNat _).trans ((BitVec.getLsbD_ofFnLE _ _).trans (dif_pos hs))

theorem crossBits_all (w b : Index) : crossBits 0 6 w b = b.rev :=
  index_ext fun s hs => by
    have hrev : b.rev.val.testBit s = (decide (s < 6) && !b.val.testBit s) := by
      rw [Fin.val_rev]
      exact Nat.testBit_two_pow_sub_succ (n := 6) b.isLt s
    rw [testBit_crossBits _ _ _ _ hs, if_pos (by omega), hrev, decide_eq_true hs, Bool.true_and]

/-- Crossing bit `n` after the bits below it. -/
theorem crossBits_succ (n : Nat) (w b : Index) :
    crossBits n (n + 1) (crossBits 0 n w b) (crossBits 0 n b w) = crossBits 0 (n + 1) w b :=
  index_ext fun s hs => by
    simp only [testBit_crossBits _ _ _ _ hs]
    rcases Nat.lt_trichotomy s n with h | h | h
    · rw [if_neg (by omega), if_pos (by omega), if_pos (by omega)]
    · rw [if_pos (by omega), if_neg (by omega), if_pos (by omega)]
    · rw [if_neg (by omega), if_neg (by omega), if_neg (by omega)]

/-- `crossBits` at one bit is known by that bit and by the other bits. -/
theorem crossBits_one {t : Nat} {w b v : Index} (ht : v.val.testBit t = !b.val.testBit t)
    (hv : ∀ s, s ≠ t → v.val.testBit s = w.val.testBit s) : crossBits t (t + 1) w b = v :=
  index_ext fun s hs => by
    rw [testBit_crossBits _ _ _ _ hs]
    by_cases hst : s = t
    · rw [if_pos (by omega), hst, ht]
    · rw [if_neg (by omega), hv s hst]

theorem crossBits_of_ne {t : Nat} {w b : Index} (h : w.val.testBit t = !b.val.testBit t) :
    crossBits t (t + 1) w b = w :=
  crossBits_one h fun _ _ => rfl

/-- Setting a clear bit adds its weight. -/
theorem or_two_pow_of_testBit {k t : Nat} (hk : k.testBit t = false) : k ||| 2 ^ t = k + 2 ^ t := by
  have hlow : k % 2 ^ (t + 1) < 2 ^ t := by
    rw [Nat.mod_pow_succ, ← Nat.toNat_testBit, hk]
    simpa using Nat.mod_lt k (Nat.two_pow_pos t)
  have hsum : k % 2 ^ (t + 1) + 2 ^ t < 2 ^ (t + 1) := by
    have := Nat.two_pow_succ t
    omega
  calc k ||| 2 ^ t = (2 ^ (t + 1) * (k / 2 ^ (t + 1)) + k % 2 ^ (t + 1)) ||| 2 ^ t := by
        rw [Nat.div_add_mod]
    _ = 2 ^ (t + 1) * (k / 2 ^ (t + 1)) + (k % 2 ^ (t + 1) + 2 ^ t) := by
        rw [Nat.two_pow_add_eq_or_of_lt (by omega), Nat.or_assoc, Nat.or_two_pow_eq_add_of_lt hlow,
          ← Nat.two_pow_add_eq_or_of_lt hsum]
    _ = k + 2 ^ t := by rw [← Nat.add_assoc, Nat.div_add_mod]

section Round
variable {t : Nat} {j : Index} (hj : j.val = 2 ^ t)
include hj

theorem and_eq_zero_iff_testBit (k : Index) : k &&& j = 0 ↔ k.val.testBit t = false := by
  rw [Fin.ext_iff, Fin.and_val, hj, Nat.and_two_pow]
  cases k.val.testBit t <;> simp

theorem partner_val (k : Index) : (partner j k).val = k.val ||| 2 ^ t := by
  have hlt : k.val ||| 2 ^ t < 64 := Nat.or_lt_two_pow (n := 6) k.isLt (hj ▸ j.isLt)
  rw [partner, Fin.or_val, hj, Nat.mod_eq_of_lt hlt]

theorem testBit_partner (k : Index) (s : Nat) :
    (partner j k).val.testBit s = (k.val.testBit s || decide (t = s)) := by
  rw [partner_val hj, Nat.testBit_or, Nat.testBit_two_pow]

theorem partner_val_of_clear {k : Index} (hk : k.val.testBit t = false) :
    (partner j k).val = k.val + 2 ^ t := by
  rw [partner_val hj, or_two_pow_of_testBit hk]

theorem testBit_partner_self (k : Index) : (partner j k).val.testBit t = true := by
  rw [testBit_partner hj, decide_eq_true rfl, Bool.or_true]

/-- An index that has the bit is the partner of the one without it. -/
theorem exists_partner {w : Index} (hw : w.val.testBit t = true) :
    ∃ k : Index, k.val.testBit t = false ∧ w = partner j k := by
  obtain ⟨k, hk⟩ := Nat.exists_eq_add_of_le (Nat.ge_two_pow_of_testBit hw)
  have hclear : k.testBit t = false := by
    rwa [hk, Nat.testBit_two_pow_add_eq, Bool.not_eq_true'] at hw
  refine ⟨⟨k, by omega⟩, hclear, Fin.ext ?_⟩
  rw [partner_val_of_clear hj hclear, hk, Nat.add_comm]

/-- Words `k` and `partner j k` are exchanged with each other and with no other word. -/
theorem pair_disjoint {k q w : Index} (hk : k.val.testBit t = false) (hq : q.val.testBit t = false)
    (hne : q ≠ k) (hw : w = k ∨ w = partner j k) : w ≠ partner j q ∧ w ≠ q := by
  have hk' := testBit_partner_self hj k
  have hq' := testBit_partner_self hj q
  rcases hw with rfl | rfl
  · exact ⟨fun e => by simp [← e, hk] at hq', hne.symm⟩
  · refine ⟨fun e => hne (Fin.ext ?_), fun e => by simp [e, hq] at hk'⟩
    have := congrArg Fin.val e
    rw [partner_val_of_clear hj hk, partner_val_of_clear hj hq] at this
    omega

theorem blockSize_ne_zero : j ≠ 0 := fun e => by
  rw [e] at hj
  exact absurd hj (Nat.two_pow_pos t).ne

theorem partner_ne {k : Index} (hk : k.val.testBit t = false) : partner j k ≠ k := fun e => by
  have h := testBit_partner_self hj k
  rw [e, hk] at h
  cases h

/-- The exchanges at other words leave a pair alone. -/
theorem foldl_exchange_untouched {m : Word} {k w : Index} (hk : k.val.testBit t = false)
    (hw : w = k ∨ w = partner j k) (ks : List Index) (hks : k ∉ ks) (X : BitMatrix) :
    (ks.foldl (fun X q => if q &&& j = 0 then exchange j m X q else X) X)[w] = X[w] := by
  induction ks generalizing X with
  | nil => rfl
  | cons q ks ih =>
    obtain ⟨hqk, hks⟩ := List.ne_and_not_mem_of_not_mem_cons hks
    rw [List.foldl_cons, ih hks]
    split
    · next hq =>
      have hq := (and_eq_zero_iff_testBit hj q).1 hq
      obtain ⟨hne', hne⟩ := pair_disjoint hj hk hq (Ne.symm hqk) hw
      rw [getElem_exchange _ _ _ _ _ (partner_ne hj hq), if_neg hne', if_neg hne]
    · rfl

/-- A round does to each pair of words what its one exchange does (41_transpose.md R85). -/
theorem matrixBit_exchangeRound_eq {m : Word} {k w : Index} (hk : k.val.testBit t = false)
    (hw : w = k ∨ w = partner j k) (X : BitMatrix) (b : Index) :
    matrixBit (exchangeRound j m X) w b = matrixBit (exchange j m X k) w b := by
  obtain ⟨pre, post, hsplit⟩ := List.append_of_mem (List.mem_finRange k)
  have hnodup := List.nodup_finRange 64
  rw [hsplit, List.nodup_middle, List.nodup_cons, List.mem_append, not_or] at hnodup
  obtain ⟨⟨hpre, hpost⟩, -⟩ := hnodup
  have hne := partner_ne hj hk
  rw [matrixBit, matrixBit, exchangeRound, hsplit, List.foldl_append, List.foldl_cons,
    foldl_exchange_untouched hj hk hw post hpost, if_pos ((and_eq_zero_iff_testBit hj k).2 hk),
    getElem_exchange _ _ _ _ _ hne, getElem_exchange _ _ _ _ _ hne,
    foldl_exchange_untouched hj hk (.inl rfl) pre hpre,
    foldl_exchange_untouched hj hk (.inr rfl) pre hpre,
    foldl_exchange_untouched hj hk hw pre hpre]

theorem testBit_partner_of_ne (k : Index) {s : Nat} (hs : s ≠ t) :
    (partner j k).val.testBit s = k.val.testBit s := by
  rw [testBit_partner hj, decide_eq_false hs.symm, Bool.or_false]

theorem crossBits_of_clear {w b : Index} (hb : b.val.testBit t = false) :
    crossBits t (t + 1) w b = partner j w :=
  crossBits_one (by rw [testBit_partner_self hj, hb]; rfl) fun _ => testBit_partner_of_ne hj w

theorem crossBits_partner_of_set {k b : Index} (hk : k.val.testBit t = false)
    (hb : b.val.testBit t = true) : crossBits t (t + 1) (partner j k) b = k :=
  crossBits_one (by rw [hk, hb]; rfl) fun _ hs => (testBit_partner_of_ne hj k hs).symm

variable {m : Word} (hm : SelectsClear m t)
include hm

/-- A bit of a word without the block bit: fetched from the partner, if the mask selects it. -/
theorem matrixBit_exchange_base {k : Index} (hk : k.val.testBit t = false) (X : BitMatrix)
    (b : Fin 64) : matrixBit (exchange j m X k) k b =
      bif b.val.testBit t then matrixBit X k b else matrixBit X (partner j k) (partner j b) := by
  have hne := partner_ne hj hk
  rw [matrixBit, getElem_exchange _ _ _ _ _ hne, if_neg hne.symm, if_pos rfl, BitVec.getLsbD_xor,
    BitVec.getLsbD_and, hm, BitVec.getLsbD_xor, BitVec.getLsbD_ushiftRight, hj]
  cases hb : b.val.testBit t
  · simp [matrixBit, partner_val_of_clear hj hb, Nat.add_comm b.val]
  · simp [matrixBit]

theorem matrixBit_exchange_partner {k c : Index} (hk : k.val.testBit t = false)
    (hc : c.val.testBit t = false) (X : BitMatrix) :
    matrixBit (exchange j m X k) (partner j k) (partner j c) = matrixBit X k c := by
  have hlt : 2 ^ t + c.val < 64 := by
    have := partner_val_of_clear hj hc
    omega
  rw [matrixBit, getElem_exchange _ _ _ _ _ (partner_ne hj hk), if_pos rfl,
    partner_val_of_clear hj hc, Nat.add_comm, BitVec.getLsbD_xor, BitVec.getLsbD_shiftLeft, hj,
    Nat.add_sub_cancel_left, BitVec.getLsbD_and, hm, hc, BitVec.getLsbD_xor,
    BitVec.getLsbD_ushiftRight]
  simp [matrixBit, hlt, Bool.xor_left_comm]

/-- The mask, moved up by the block size, selects no position without the block bit. -/
theorem matrixBit_exchange_partner_of_clear {k b : Index} (hk : k.val.testBit t = false)
    (hb : b.val.testBit t = false) (X : BitMatrix) :
    matrixBit (exchange j m X k) (partner j k) b = matrixBit X (partner j k) b := by
  rw [matrixBit, getElem_exchange _ _ _ _ _ (partner_ne hj hk), if_pos rfl, BitVec.getLsbD_xor,
    BitVec.getLsbD_shiftLeft, hj]
  by_cases hlt : b.val < 2 ^ t
  · simp [matrixBit, hlt]
  · obtain ⟨c, hc⟩ := Nat.exists_eq_add_of_le (Nat.le_of_not_lt hlt)
    have hset : c.testBit t = true := by
      rwa [hc, Nat.testBit_two_pow_add_eq, Bool.not_eq_false'] at hb
    have hmask : m.getLsbD c = false := by
      rw [hm ⟨c, by omega⟩, hset]
      rfl
    simp [matrixBit, hc, hmask]

/-- Where one round fetches each bit from (41_transpose.md R87). -/
theorem matrixBit_exchangeRound (X : BitMatrix) (w b : Index) :
    matrixBit (exchangeRound j m X) w b =
      matrixBit X (crossBits t (t + 1) w b) (crossBits t (t + 1) b w) := by
  cases hw : w.val.testBit t
  · rw [matrixBit_exchangeRound_eq hj hw (.inl rfl), matrixBit_exchange_base hj hm hw]
    cases hb : b.val.testBit t
    · rw [crossBits_of_clear hj hb, crossBits_of_clear hj hw, cond_false]
    · rw [crossBits_of_ne (by rw [hw, hb]; rfl), crossBits_of_ne (by rw [hw, hb]; rfl), cond_true]
  · obtain ⟨k, hk, rfl⟩ := exists_partner hj hw
    rw [matrixBit_exchangeRound_eq hj hk (.inr rfl)]
    cases hb : b.val.testBit t
    · rw [matrixBit_exchange_partner_of_clear hj hm hk hb, crossBits_of_ne (by rw [hw, hb]; rfl),
        crossBits_of_ne (by rw [hw, hb]; rfl)]
    · obtain ⟨c, hc, rfl⟩ := exists_partner hj hb
      rw [matrixBit_exchange_partner hj hm hk hc, crossBits_partner_of_set hj hk hb,
        crossBits_partner_of_set hj hc hw]

end Round

/-- Adding one block to a position changes the next bit of the position exactly if it carries out of
the block bit. -/
theorem testBit_succ_two_pow_add (t c : Nat) :
    (2 ^ t + c).testBit (t + 1) = (c.testBit t ^^ c.testBit (t + 1)) := by
  have hquot : (2 ^ t + c) / 2 ^ t = c / 2 ^ t + 1 := Nat.add_div_left c (Nat.two_pow_pos t)
  simp only [Nat.testBit_eq_decide_div_mod_eq, Nat.pow_succ, ← Nat.div_div_eq_div_mul, hquot]
  generalize c / 2 ^ t = q
  rw [Bool.eq_iff_iff]
  simp only [decide_eq_true_eq, bne_iff_ne, ne_eq, decide_eq_decide]
  omega

/-- The update of the mask halves the blocks it selects (41_transpose.md R86). -/
theorem selectsClear_nextMask {t : Nat} {j : Index} {m : Word} (hj : j.val = 2 ^ (t + 1))
    (hm : SelectsClear m (t + 1)) : SelectsClear (nextMask j m) t := by
  intro p
  have hhalf : (halve j).val = 2 ^ t := by simp [halve, hj, Nat.pow_succ]
  rw [nextMask, BitVec.getLsbD_xor, hm, BitVec.getLsbD_shiftLeft, hhalf]
  by_cases hlt : p.val < 2 ^ t
  · have hlt' : p.val < 2 ^ (t + 1) := hlt.trans (Nat.pow_lt_pow_succ (by omega))
    simp [hlt, Nat.testBit_lt_two_pow hlt, Nat.testBit_lt_two_pow hlt']
  · obtain ⟨c, hc⟩ := Nat.exists_eq_add_of_le (Nat.le_of_not_lt hlt)
    have hcm : m.getLsbD c = !c.testBit (t + 1) := hm ⟨c, by omega⟩
    have hlt64 : 2 ^ t + c < 64 := hc ▸ p.isLt
    rw [hc, testBit_succ_two_pow_add, Nat.testBit_two_pow_add_eq, Nat.add_sub_cancel_left, hcm]
    simp [hlt64]

/-- All rounds from block size `2 ^ t` down to 1 cross the bits up to `t` (41_transpose.md R87). -/
theorem matrixBit_scalarRounds {t : Nat} {j : Index} {m : Word} (hj : j.val = 2 ^ t)
    (hm : SelectsClear m t) (X : BitMatrix) (w b : Index) :
    matrixBit (scalarRounds (t + 2) j m X) w b =
      matrixBit X (crossBits 0 (t + 1) w b) (crossBits 0 (t + 1) b w) := by
  have hne : j ≠ 0 := blockSize_ne_zero hj
  rw [scalarRounds, if_neg hne]
  induction t generalizing j m X with
  | zero =>
    have hhalf : halve j = 0 := Fin.ext (by simp [halve, hj])
    rw [scalarRounds, if_pos hhalf, matrixBit_exchangeRound hj hm]
  | succ t ih =>
    have hhalf : (halve j).val = 2 ^ t := by simp [halve, hj, Nat.pow_succ]
    have hne : halve j ≠ 0 := blockSize_ne_zero hhalf
    rw [scalarRounds, if_neg hne, ih hhalf (selectsClear_nextMask hj hm) _ hne,
      matrixBit_exchangeRound hj hm, crossBits_succ, crossBits_succ]

/-- The first mask, the low half, selects the positions whose bit 5 is clear (41_transpose.md
R86). -/
theorem selectsClear_lowHalf : SelectsClear 0x00000000FFFFFFFF 5 := by
  unfold SelectsClear
  decide

/-- Settles O45: six rounds from block size 32 cross all six bits, which reverses both indices. -/
theorem scalarAlgorithmIsTranspose : Obligations.ScalarAlgorithmIsTranspose := fun A =>
  matrix_ext fun r b => by
    have h := matrixBit_scalarRounds (t := 5) (j := 32) rfl selectsClear_lowHalf A r b
    rw [crossBits_all, crossBits_all] at h
    exact h.trans (transpose_bit A r b).symm

end Sys2Proof.Machine

/-! Data movement (42_datamove.md): which elements each of the six commands writes or answers, the
lists of single-element commands that `PUTL` and `GETL` stand for, and reading back what was
written. -/

namespace Sys2Proof.Machine

/-- Reading a word after writing one (20_memory.md R32). -/
theorem getElem_setWord (A : BitMatrix) (i j : Index) (w : Word) :
    (A.set i w)[j] = if j = i then w else A[j] := by
  simp [Vector.getElem_set, Fin.ext_iff, eq_comm]

/-- A lane of any batch register after one is written, where the batch written has a word of its own
only under a condition `c` and else what the register held. -/
theorem WritesBatch.getElem_getBatch {s t : State} {rd : BReg} {X : Batch} {i : Index} {l : Lane}
    {c : Prop} [Decidable c] {w : Word} (h : WritesBatch s t rd X)
    (hX : X[i][l] = if c then w else (s.getBatch rd)[i][l]) (r : BReg) :
    (t.getBatch r)[i][l] = if r = rd ∧ c then w else (s.getBatch r)[i][l] := by
  obtain ⟨hrd, _, hbut, _⟩ := h
  by_cases hr : r = rd
  · subst hr
    simp only [hrd, hX, true_and]
  · simp only [hbut r hr, hr, false_and, if_false]

/-- A word of any matrix register after one is written. -/
theorem WritesMatrix.getElem_getMatrix {s t : State} {rd : MReg} {A : BitMatrix}
    (h : WritesMatrix s t rd A) (r : MReg) (i : Index) :
    (t.getMatrix r)[i] = if r = rd then A[i] else (s.getMatrix r)[i] := by
  obtain ⟨hrd, _, hbut, _⟩ := h
  by_cases hr : r = rd
  · rw [if_pos hr, hr, hrd]
  · rw [if_neg hr, hbut r hr]

/-- Batch registers with the same lanes are the same. -/
theorem sameBatches_of_lanes {s t : State}
    (h : ∀ (r : BReg) (i : Index) (l : Lane), (t.getBatch r)[i][l] = (s.getBatch r)[i][l]) :
    SameBatches s t :=
  fun r => Vector.ext fun i hi => plane_ext (h r ⟨i, hi⟩)

/-- Matrix registers with the same words are the same. -/
theorem sameMatrices_of_words {s t : State}
    (h : ∀ (r : MReg) (i : Index), (t.getMatrix r)[i] = (s.getMatrix r)[i]) : SameMatrices s t :=
  fun r => Vector.ext fun i hi => h r ⟨i, hi⟩

theorem SameBatches.trans {s t u : State} (h : SameBatches s t) (h' : SameBatches t u) :
    SameBatches s u :=
  fun r => (h' r).trans (h r)

theorem SameMatrices.trans {s t u : State} (h : SameMatrices s t) (h' : SameMatrices t u) :
    SameMatrices s u :=
  fun r => (h' r).trans (h r)

theorem SameBatches.symm {s t : State} (h : SameBatches s t) : SameBatches t s :=
  fun r => (h r).symm

theorem SameMatrices.symm {s t : State} (h : SameMatrices s t) : SameMatrices t s :=
  fun r => (h r).symm

/-- `LDM` writes one word of one matrix register (42_datamove.md R99). -/
theorem exec_ldm_writes_word (rd : MReg) (idx : Index) (v : Word) (s : State) :
    ∃ t, exec (.ldm rd idx v) s = .next t ∧
      (∀ (r : MReg) (i : Index),
        (t.getMatrix r)[i] = if r = rd ∧ i = idx then v else (s.getMatrix r)[i]) ∧
      Answers s t .ok 0 ∧ SameBatches s t ∧ SameRest s t := by
  have hw := writesMatrix_setMatrix s rd ((s.getMatrix rd).set idx v)
  have hword := hw.getElem_getMatrix
  obtain ⟨_, hans, _, hbatch, hrest⟩ := hw
  refine ⟨_, rfl, fun r i => ?_, hans, hbatch, hrest⟩
  rw [hword, getElem_setWord, ite_and]
  by_cases hr : r = rd
  · rw [hr]
  · rw [if_neg hr, if_neg hr]

/-- `LDP` writes one lane of one plane of one batch register (42_datamove.md R101). -/
theorem exec_ldp_writes_lane (rd : BReg) (idx : Index) (lane : Lane) (v : Word) (s : State) :
    ∃ t, exec (.ldp rd idx lane v) s = .next t ∧
      (∀ (r : BReg) (i : Index) (l : Lane), (t.getBatch r)[i][l] =
        if r = rd ∧ i = idx ∧ l = lane then v else (s.getBatch r)[i][l]) ∧
      Answers s t .ok 0 ∧ SameMatrices s t ∧ SameRest s t := by
  have hw := writesBatch_setBatch s rd (writeLane (s.getBatch rd) idx lane v)
  have hlane (r i l) := hw.getElem_getBatch (getElem_writeLane (s.getBatch rd) idx i lane l v) r
  obtain ⟨_, hans, _, hmatrix, hrest⟩ := hw
  exact ⟨_, rfl, hlane, hans, hmatrix, hrest⟩

theorem exec_stm_onlyAnswers (rs1 : MReg) (idx : Index) (s : State) :
    ∃ t, exec (.stm rs1 idx) s = .next t ∧ OnlyAnswers s t .ok (s.getMatrix rs1)[idx] :=
  ⟨_, rfl, onlyAnswers_respond s .ok _⟩

theorem exec_stp_onlyAnswers (rs1 : BReg) (idx : Index) (lane : Lane) (s : State) :
    ∃ t, exec (.stp rs1 idx lane) s = .next t ∧
      OnlyAnswers s t .ok (s.getBatch rs1)[idx][lane] :=
  ⟨_, rfl, onlyAnswers_respond s .ok _⟩

/-- Settles O48: `LDM` is its row of the table and writes one word. -/
theorem ldmResult : Obligations.LdmResult :=
  ⟨encodes_build .ldm, fun s rd idx v => exec_ldm_writes_word rd idx v s⟩

/-- Settles O49: `STM` is its row of the table and only answers. -/
theorem stmResult : Obligations.StmResult :=
  ⟨encodes_build .stm, fun s rs1 idx => exec_stm_onlyAnswers rs1 idx s⟩

/-- Bit `p` of lane `l` of plane `i` is bit `63 − i` of integer `64·l + p` (10_state.md R15). -/
theorem intBit_eq_getLsbD_lane (X : Batch) (i : Index) (l : Lane) (p : Fin 64) :
    intBit X ⟨64 * l.val + p.val, by omega⟩ ⟨63 - i.val, by omega⟩ = X[i][l].getLsbD p.val := by
  have hrev : (⟨63 - i.val, by omega⟩ : Fin 64).rev = i :=
    Fin.ext (by rw [Fin.val_rev]; dsimp only; omega)
  have hlane : (64 * l.val + p.val) / 64 = l.val := by omega
  have hbit : (64 * l.val + p.val) % 64 = p.val := by omega
  simp only [intBit, planeBit, hrev, hlane, hbit, Fin.eta]

/-- Settles O50: `LDP` is its row of the table and writes one lane, which holds one bit of each of
64 integers. -/
theorem ldpResult : Obligations.LdpResult := by
  refine ⟨encodes_build .ldp, fun s rd idx lane v => ?_⟩
  obtain ⟨t, ht, hlane, hframe⟩ := exec_ldp_writes_lane rd idx lane v s
  refine ⟨t, ht, hlane, fun p => ?_, hframe⟩
  rw [intBit_eq_getLsbD_lane, hlane, if_pos ⟨rfl, rfl, rfl⟩]

/-- Settles O51: `STP` is its row of the table and only answers. -/
theorem stpResult : Obligations.StpResult :=
  ⟨encodes_build .stp, fun s rs1 idx lane => exec_stp_onlyAnswers rs1 idx lane s⟩

/-- `LDP` commands into one lane of the planes listed write that lane of those planes
(42_datamove.md R103). -/
theorem execAll_ldp_writes_lanes (rd : BReg) (lane : Lane) (f : Index → Word) (is : List Index)
    (s : State) : ∃ u, execAll (is.map fun i => .ldp rd i lane (f i)) s = .next u ∧
      (∀ (r : BReg) (i : Index) (l : Lane), (u.getBatch r)[i][l] =
        if (r = rd ∧ l = lane) ∧ i ∈ is then f i else (s.getBatch r)[i][l]) ∧
      SameMatrices s u := by
  induction is generalizing s with
  | nil => exact ⟨s, rfl, fun r i l => by simp, fun _ => rfl⟩
  | cons j js ih =>
    obtain ⟨t, ht, htlane, _, htmatrix, _⟩ := exec_ldp_writes_lane rd j lane (f j) s
    obtain ⟨u, hu, hulane, humatrix⟩ := ih t
    refine ⟨u, (execAll_cons ht _).trans hu, fun r i l => ?_, htmatrix.trans humatrix⟩
    rw [hulane, htlane]
    by_cases hij : i = j
    · subst hij
      by_cases hr : r = rd ∧ l = lane <;> simp [hr]
    · simp [hij]

/-- Pairs of an `STP` and an `LDM` of the words listed write those words (42_datamove.md R104). -/
theorem execAll_stp_ldm_writes_words (rd : MReg) (rs1 : BReg) (lane : Lane) (f : Index → Word)
    (is : List Index) (s : State) :
    ∃ u, execAll (is.flatMap fun i => [.stp rs1 i lane, .ldm rd i (f i)]) s = .next u ∧
      (∀ (r : MReg) (i : Index), (u.getMatrix r)[i] =
        if r = rd ∧ i ∈ is then f i else (s.getMatrix r)[i]) ∧
      SameBatches s u := by
  induction is generalizing s with
  | nil => exact ⟨s, rfl, fun r i => by simp, fun _ => rfl⟩
  | cons j js ih =>
    obtain ⟨v, hv, _, hvbatch, hvmatrix, _⟩ := exec_stp_onlyAnswers rs1 j lane s
    obtain ⟨t, ht, htword, _, htbatch, _⟩ := exec_ldm_writes_word rd j (f j) v
    obtain ⟨u, hu, huword, hubatch⟩ := ih t
    refine ⟨u, (execAll_cons hv _).trans ((execAll_cons ht _).trans hu), fun r i => ?_,
      (hvbatch.trans htbatch).trans hubatch⟩
    rw [huword, htword, hvmatrix]
    by_cases hij : i = j
    · subst hij
      by_cases hr : r = rd <;> simp [hr]
    · simp [hij]

/-- Settles O52: `PUTL` is its row of the table and writes a lane column, lane by lane what the 64
`LDP` commands write. -/
theorem putlResult : Obligations.PutlResult := by
  refine ⟨encodes_build .putl, fun s rd lane rs1 => ?_⟩
  obtain ⟨t, ht, hw⟩ := exec_putl_writesBatch rd lane rs1 s
  obtain ⟨u, hu, hulane, humatrix⟩ :=
    execAll_ldp_writes_lanes rd lane (fun i => (s.getMatrix rs1)[i]) (List.finRange 64) s
  have htlane (r i l) := hw.getElem_getBatch
    (getElem_putColumn (s.getBatch rd) lane l (s.getMatrix rs1) i) r
  obtain ⟨_, hans, _, hmatrix, hrest⟩ := hw
  refine ⟨t, u, ht, htlane, hans, hmatrix, hrest, hu, sameBatches_of_lanes fun r i l => ?_,
    hmatrix.symm.trans humatrix⟩
  rw [hulane, htlane]
  simp only [List.mem_finRange, and_true]

/-- Settles O53: `GETL` is its row of the table and writes a matrix register, word by word what the
64 pairs of `STP` and `LDM` write. -/
theorem getlResult : Obligations.GetlResult := by
  refine ⟨encodes_build .getl, fun s rd rs1 lane => ?_⟩
  obtain ⟨t, ht, hw⟩ := exec_getl_writesMatrix rd rs1 lane s
  obtain ⟨u, hu, huword, hubatch⟩ := execAll_stp_ldm_writes_words rd rs1 lane
    (fun i => (s.getBatch rs1)[i][lane]) (List.finRange 64) s
  have htword := hw.getElem_getMatrix
  simp only [getElem_getColumn] at htword
  obtain ⟨_, hans, _, hbatch, hrest⟩ := hw
  refine ⟨t, u, ht, htword, hans, hbatch, hrest, hu, hbatch.symm.trans hubatch,
    sameMatrices_of_words fun r i => ?_⟩
  rw [huword, htword]
  simp only [List.mem_finRange, and_true]

/-- A lane column put and got is the matrix it was put from (42_datamove.md R105). -/
theorem execAll_putl_getl (s : State) (b : BReg) (m d : MReg) (l : Lane) :
    ∃ t, execAll [.putl b l m, .getl d b l] s = .next t ∧ t.getMatrix d = s.getMatrix m := by
  obtain ⟨u, hu, hwu⟩ := exec_putl_writesBatch b l m s
  obtain ⟨t, ht, hwt⟩ := exec_getl_writesMatrix d b l u
  refine ⟨t, (execAll_cons hu _).trans (execAll_cons ht []), ?_⟩
  rw [hwt.getMatrix_eq, hwu.getBatch_eq, getColumn_putColumn]

/-- A word loaded and stored is the word loaded (42_datamove.md R105). -/
theorem execAll_ldm_stm (s : State) (d : MReg) (i : Index) (v : Word) :
    ∃ t, execAll [.ldm d i v, .stm d i] s = .next t ∧
      t.responses = ⟨.ok, v⟩ :: ⟨.ok, 0⟩ :: s.responses := by
  obtain ⟨u, hu, hword, huans, _⟩ := exec_ldm_writes_word d i v s
  obtain ⟨t, ht, htans, _⟩ := exec_stm_onlyAnswers d i u
  rw [hword, if_pos ⟨rfl, rfl⟩] at htans
  exact ⟨t, (execAll_cons hu _).trans (execAll_cons ht []),
    Eq.trans htans (congrArg (List.cons _) huans)⟩

/-- A lane loaded and stored is the lane loaded (42_datamove.md R105). -/
theorem execAll_ldp_stp (s : State) (b : BReg) (i : Index) (l : Lane) (v : Word) :
    ∃ t, execAll [.ldp b i l v, .stp b i l] s = .next t ∧
      t.responses = ⟨.ok, v⟩ :: ⟨.ok, 0⟩ :: s.responses := by
  obtain ⟨u, hu, hlane, huans, _⟩ := exec_ldp_writes_lane b i l v s
  obtain ⟨t, ht, htans, _⟩ := exec_stp_onlyAnswers b i l u
  rw [hlane, if_pos ⟨rfl, rfl, rfl⟩] at htans
  exact ⟨t, (execAll_cons hu _).trans (execAll_cons ht []),
    Eq.trans htans (congrArg (List.cons _) huans)⟩

/-- Settles O54: each reader gives back what its writer put there. -/
theorem dataMoveRoundTrips : Obligations.DataMoveRoundTrips := fun s b m d i l v =>
  ⟨execAll_putl_getl s b m d l, execAll_ldm_stm s d i v, execAll_ldp_stp s b i l v⟩

end Sys2Proof.Machine

/-! The capability register (43_system.md): the one command that answers it. -/

namespace Sys2Proof.Machine

/-- The two values of `CAP`, as hardwired (10_state.md R24). -/
theorem capability_eq_ite (a : Bool) :
    capability a = if a then 0x0000000144380840 else 0x0000000044380840 := by
  obtain ⟨_, _, hwithout, hwith⟩ := capabilityIsHardwired
  cases a with
  | false => exact hwithout
  | true => exact hwith

theorem exec_rdcap_onlyAnswers (s : State) :
    ∃ t, exec .rdcap s = .next t ∧ OnlyAnswers s t .ok (capability s.hasAccel) :=
  ⟨_, rfl, onlyAnswers_respond s .ok _⟩

/-- Settles O57: `RDCAP` is its row of the table and only answers `CAP`, whose two values are known. -/
theorem rdcapResult : Obligations.RdcapResult :=
  ⟨encodes_build .rdcap, fun s => capability_eq_ite s.hasAccel ▸ exec_rdcap_onlyAnswers s⟩

end Sys2Proof.Machine

/-! The two errors (60_exceptions.md R112 to R119): which commands draw `ERR_PARAM`, that a bit which
must be zero is checked first, and that an error leaves nothing behind that a later command can see. -/

namespace Sys2Proof.Machine

/-- Bits 19 to 8 are those that `MODP2` does not use (30_encoding.md R52). -/
theorem unused_bits_zero_of_modp2_match {cmd : BitVec 32}
    (h : cmd &&& 0xFF0FFF00 = 0x03000000) : cmd &&& 0x000FFF00 = 0 :=
  calc cmd &&& 0x000FFF00 = cmd &&& 0xFF0FFF00 &&& 0x000FFF00 := by rw [BitVec.and_assoc]; rfl
    _ = 0 := by rw [h]; rfl

/-- Settles O14: a word with such a bit set fails the mask test of `MODP2`, whatever its `k`. -/
theorem illegalBeforeParam : Obligations.IllegalBeforeParam := by
  intro s q rest h hop _ hbits
  refine mustBeZeroBitIsIllegal s q rest .modp2 h hop (.inl fun hz => hbits ?_)
  exact unused_bits_zero_of_modp2_match ((cmd_match_iff .modp2 q.cmd).2 ⟨hop, hz⟩)

/-- Settles O15: a step that answers has one command's effect, and an error's is the answer alone. -/
theorem errorsChangeNothing : Obligations.ErrorsChangeNothing := by
  intro s t st v hstep hans hne
  obtain ⟨_, rfl⟩ | ⟨_, _, rfl⟩ | ⟨_, _, _, heff⟩ := step_effect hstep
  · exact absurd hans.symm (List.cons_ne_self _ _)
  · exact absurd hans.symm (List.cons_ne_self _ _)
  · obtain ⟨_, _, hans', _, herr⟩ := effect_answers heff
    obtain ⟨rfl, rfl⟩ := hans'.unique hans
    obtain ⟨hv, hbatch, hmatrix⟩ := herr hne
    exact ⟨hbatch, hmatrix, hv⟩

theorem commandStatus_eq_ok {i : Instr} {hasAccel : Bool}
    (hk : ∀ rd rs1 k, i = .modp2 rd rs1 k → k ≤ 64) (ha : i.opcode = .trna → hasAccel = true) :
    commandStatus hasAccel i = .ok := by
  cases i with
  | modp2 rd rs1 k => exact if_neg (Nat.not_lt.2 (hk rd rs1 k rfl))
  | trna rd rs1 => rw [ha rfl]; rfl
  | add | adds | reduce | trns | ldm | stm | ldp | stp | putl | getl | rdcap => rfl

/-- Settles O17: every command answers its status, and that is `OK` but for the two exceptions. -/
theorem legalCommandsAnswerOk : Obligations.LegalCommandsAnswerOk := by
  intro i s hk ha
  rw [← commandStatus_eq_ok hk ha]
  exact exec_answers_commandStatus i s

/-- A state in which only an answer was given differs in its list of answers alone. -/
theorem OnlyAnswers.eq_respond {s e : State} {st : Status} {v : Word} (h : OnlyAnswers s e st v) :
    e = s.respond st v := by
  obtain ⟨hans, hbatch, hmatrix, haccel, hinputs, hresets⟩ := h
  have hb : e.batch = s.batch := Vector.ext fun r hr => hbatch ⟨r, hr⟩
  have hm : e.matrix = s.matrix := Vector.ext fun r hr => hmatrix ⟨r, hr⟩
  cases e
  cases hb; cases hm; cases haccel; cases hinputs; cases hresets; cases hans
  rfl

/-- No command looks at the answers already given: it adds the same one to any list of them. -/
theorem exec_with_responses (i : Instr) {s t : State} (l : List Response)
    (h : exec i s = .next t) : ∃ r, t.responses = r :: s.responses ∧
      exec i { s with responses := l } = .next { t with responses := r :: l } := by
  cases i with
  | modp2 rd rs1 k =>
    by_cases hk : k ≤ 64
    · cases (execModp2_of_le rd rs1 hk s).symm.trans h
      exact ⟨_, rfl, execModp2_of_le rd rs1 hk _⟩
    · cases (execModp2_of_gt rd rs1 (by omega) s).symm.trans h
      exact ⟨_, rfl, execModp2_of_gt rd rs1 (by omega) _⟩
  | trna rd rs1 =>
    obtain ha | ha := Bool.eq_false_or_eq_true s.hasAccel
    · cases (execTrna_of_accel rd rs1 ha).symm.trans h
      exact ⟨_, rfl, execTrna_of_accel rd rs1 ha⟩
    · cases (execTrna_of_not_accel rd rs1 ha).symm.trans h
      exact ⟨_, rfl, execTrna_of_not_accel rd rs1 ha⟩
  | add | adds | reduce | trns | ldm | stm | ldp | stp | putl | getl | rdcap =>
    cases h
    exact ⟨_, rfl, rfl⟩

/-- Settles O18: an error leaves only its answer, at which no command looks. -/
theorem errorsLeaveNoTrace : Obligations.ErrorsLeaveNoTrace := by
  intro i s e t st herr h
  rw [herr.eq_respond]
  obtain ⟨r, hr, hu⟩ := exec_with_responses i (s.respond st 0).responses h
  exact ⟨_, r, hu, fun _ => rfl, fun _ => rfl, ⟨rfl, rfl, rfl⟩, hr, rfl⟩

/-- Of the commands only `MODP2` with `k` > 64 has the status `ERR_PARAM`. -/
theorem commandStatus_eq_errParam_iff {i : Instr} {hasAccel : Bool} :
    commandStatus hasAccel i = .errParam ↔ ∃ rd rs1 k, i = .modp2 rd rs1 k ∧ 64 < k := by
  cases i with
  | modp2 rd rs1 k => simp [commandStatus]
  | trna rd rs1 => cases hasAccel <;> simp [commandStatus]
  | add | adds | reduce | trns | ldm | stm | ldp | stp | putl | getl | rdcap =>
    simp [commandStatus]

/-- The order of checks gives `ERR_PARAM` to the legal `MODP2` words with `k` > 64 alone. -/
theorem statusOf_eq_errParam_iff (q : Request) (hasAccel : Bool) :
    statusOf hasAccel q.cmd = .errParam ↔ q.cmd &&& 0xFF0FFF00 = 0x03000000 ∧ 64 < kOf q := by
  have hencodes : q.cmd &&& 0xFF0FFF00 = 0x03000000 ↔
      decode q = .ok (.modp2 (rdOf q) (rs1Of q) (kOf q)) := encodes_build .modp2 q
  constructor
  · intro hst
    cases hd : decode q with
    | error e =>
      rw [statusOf_of_decode_error hd] at hst
      cases hst
    | ok i =>
      rw [statusOf_of_decode_ok hd, commandStatus_eq_errParam_iff] at hst
      obtain ⟨rd, rs1, k, rfl, hk⟩ := hst
      have hm := (exists_decode_opcode_iff q .modp2).1 ⟨_, hd, rfl⟩
      cases hd.symm.trans (hencodes.1 hm)
      exact ⟨hm, hk⟩
  · rintro ⟨hm, hk⟩
    rw [statusOf_of_decode_ok (hencodes.1 hm), commandStatus_eq_errParam_iff]
    exact ⟨_, _, _, rfl, hk⟩

/-- Settles O35: the status answered is the one of the order of checks, and an error only answers. -/
theorem paramErrorOnlyModp2 : Obligations.ParamErrorOnlyModp2 := by
  intro s t q rest h hstep
  obtain ⟨u, v, hu, hans, honly⟩ := orderOfChecks s q rest h
  cases hstep.symm.trans hu
  have hstatus : (∃ w, Answers s t .errParam w) ↔ statusOf s.hasAccel q.cmd = .errParam :=
    ⟨fun ⟨_, hparam⟩ => (Answers.unique hans hparam).1, fun hst => ⟨v, hst ▸ hans⟩⟩
  refine ⟨hstatus.trans (statusOf_eq_errParam_iff q s.hasAccel), fun hparam => ?_, rfl⟩
  rw [hstatus.1 hparam] at honly
  exact honly (by decide)

end Sys2Proof.Machine

/-! A step in every state (60_exceptions.md R126, 70_reset_and_hazards.md R133): the idle core keeps
its state, and a request leaves the port and is answered once. -/

namespace Sys2Proof.Machine

/-- A request leaves the port and adds one response (30_encoding.md R46). -/
theorem step_request_ports {s t : State} {q : Request} {rest : List Input}
    (h : s.inputs = .request q :: rest) (hstep : step s = .next t) :
    t.inputs = rest ∧ ∃ r : Response, t.responses = r :: s.responses := by
  obtain ⟨_, _, hans, ⟨_, hinputs, _⟩, _⟩ := effect_answers (step_request_effect h hstep)
  exact ⟨hinputs, _, hans⟩

/-- No state stops the core (60_exceptions.md R116). -/
theorem exists_step_next (s : State) : ∃ t, step s = .next t := by
  cases hin : s.inputs with
  | nil => exact ⟨s, step_of_idle hin⟩
  | cons a rest =>
    cases a with
    | reset => exact ⟨_, step_of_reset hin⟩
    | request q =>
      obtain ⟨t, _, hstep, _⟩ := step_answers_statusOf hin
      exact ⟨t, hstep⟩

/-- Settles O9: a step answers a next state, which is the idle step's when nothing is pending. -/
theorem stepAlwaysAnswers : Obligations.StepAlwaysAnswers := by
  intro s
  obtain ⟨t, hstep⟩ := exists_step_next s
  refine ⟨t, hstep, fun hidle => ?_, fun q rest h => step_request_ports h hstep⟩
  cases hstep.symm.trans (step_of_idle hidle)
  rfl

end Sys2Proof.Machine
